-- ==== Sys2Proof/Word.lean ====
section
/-! DEFINITION. The two word types of the block: the byte of memory and the 64-bit lane of the state. -/

namespace Sys2Proof

/-- A byte: 8 bits, an unsigned number 0..255 (00_scope.md R230, 20_memory.md R32). -/
abbrev Byte := BitVec 8

/-- A lane: an unsigned 64-bit value, bit `z` of weight 2^z (10_state.md R11, 00_scope.md R5). -/
abbrev Lane := BitVec 64

end Sys2Proof
end

