-- ==== Sys2Proof/Config.lean ====
section
/-! DEFINITION. What the spec leaves to the implementation, as plain data, and the values the model names for it. -/

namespace Sys2Proof

/-- The two open parameters of the spec (00_scope.md R6): `aw` is `AW`, the width in bits of `MSG_PTR` and `OUT_PTR`;
`lw` is `LW`, the width in bits of `MSG_LEN` and `OUT_LEN`. -/
structure Widths where
  aw : Nat
  lw : Nat
  deriving DecidableEq, Repr

namespace Widths

/-- The constraints of 00_scope.md R6: `AW >= 1` and `LW >= 8`. -/
abbrev Legal (w : Widths) : Prop := 1 ≤ w.aw ∧ 8 ≤ w.lw

/-- A value an address field of `AW` bits can carry. -/
def ptrFits (w : Widths) (p : Nat) : Bool := decide (p < 2 ^ w.aw)

/-- A value a length field of `LW` bits can carry. -/
def lenFits (w : Widths) (n : Nat) : Bool := decide (n < 2 ^ w.lw)

end Widths

namespace Config

/-- The default widths of 00_scope.md R6, 64 and 64. DESIGN CHOICE (assumption 1): the machine after reset has these;
statements hold for every value of the parameters. -/
def defaultWidths : Widths := { aw := 64, lw := 64 }

/-- What a byte of memory that nothing has written reads as. DESIGN CHOICE (assumption 3), unsafe: the spec leaves the
contents of memory to the host (70_reset_and_hazards.md R214). -/
def unlistedByte : Byte := 0#8

/-- Rounds per permutation, `NR` (00_scope.md R5). -/
abbrev NR : Nat := 24

/-- State width in bytes, `B_BYTES` (00_scope.md R5). -/
abbrev stateBytes : Nat := 200

end Config
end Sys2Proof
end

