-- ==== Sys2Proof/Syntax.lean ====
section
/-! DEFINITION. The command set: parameter sets, the fifteen commands with their operands, and the transaction that carries one. -/

namespace Sys2Proof

/-- The six parameter sets, in the order of their codes 0..5 (30_encoding.md R53). Codes 6..15 are reserved and have no
constructor (93_implementation_defined.md U4). -/
inductive Alg where
  | sha3_224 | sha3_256 | sha3_384 | sha3_512 | shake128 | shake256
  deriving DecidableEq, Repr

/-- The commands, one constructor per row of spec/opcode_table.json (30_encoding.md R55), with the operands of their
format (R54): pointers and lengths at their face value as naturals (R56). -/
inductive Instr where
  /-- `INIT`, format N (44_computation_state_machine.md R172). -/
  | init
  /-- `KECCAK_P`, format N (40_keccak_p_permutation.md R82). -/
  | keccakP
  /-- `ABSORB.SHA3_224 msg_ptr, msg_len`, format A (41_sponge_absorb.md R106). -/
  | absorbSha3_224 (msgPtr msgLen : Nat)
  /-- `ABSORB.SHA3_256 msg_ptr, msg_len`. -/
  | absorbSha3_256 (msgPtr msgLen : Nat)
  /-- `ABSORB.SHA3_384 msg_ptr, msg_len`. -/
  | absorbSha3_384 (msgPtr msgLen : Nat)
  /-- `ABSORB.SHA3_512 msg_ptr, msg_len`. -/
  | absorbSha3_512 (msgPtr msgLen : Nat)
  /-- `ABSORB.SHAKE128 msg_ptr, msg_len`. -/
  | absorbShake128 (msgPtr msgLen : Nat)
  /-- `ABSORB.SHAKE256 msg_ptr, msg_len`. -/
  | absorbShake256 (msgPtr msgLen : Nat)
  /-- `SQUEEZE out_ptr, out_len`, format Q (42_sponge_squeeze.md R124). -/
  | squeeze (outPtr outLen : Nat)
  /-- `SHA3_224 msg_ptr, msg_len, out_ptr`, format HF (43_parameter_sets_and_wrappers.md R151). -/
  | sha3_224 (msgPtr msgLen outPtr : Nat)
  /-- `SHA3_256 msg_ptr, msg_len, out_ptr` (R152). -/
  | sha3_256 (msgPtr msgLen outPtr : Nat)
  /-- `SHA3_384 msg_ptr, msg_len, out_ptr` (R153). -/
  | sha3_384 (msgPtr msgLen outPtr : Nat)
  /-- `SHA3_512 msg_ptr, msg_len, out_ptr` (R154). -/
  | sha3_512 (msgPtr msgLen outPtr : Nat)
  /-- `SHAKE128 msg_ptr, msg_len, out_ptr, out_len`, format HX (R155). -/
  | shake128 (msgPtr msgLen outPtr outLen : Nat)
  /-- `SHAKE256 msg_ptr, msg_len, out_ptr, out_len`, format HX (R156). -/
  | shake256 (msgPtr msgLen outPtr outLen : Nat)
  deriving DecidableEq, Repr

/-- What a command word selects: the operation and, where it applies, the parameter set (30_encoding.md R51, R52). -/
inductive Opcode where
  | init
  | keccakP
  | absorb (a : Alg)
  | squeeze
  | oneshot (a : Alg)
  deriving DecidableEq, Repr

/-- The five formats, by the operand fields they use (30_encoding.md R54). -/
inductive Format where
  | N | A | Q | HF | HX
  deriving DecidableEq, Repr

/-- One command transaction: the five fields of 30_encoding.md R50 side by side. The spec gives them no layout on a bus
(91_not_in_source.md N1), so there is none here (assumption 14). -/
structure Transaction where
  cw : BitVec 8
  msgPtr : Nat
  msgLen : Nat
  outPtr : Nat
  outLen : Nat
  deriving DecidableEq, Repr

end Sys2Proof
end

