-- ==== Sys2Proof/WellFormed.lean ====
section
/-! DEFINITION. Well-formed commands: every operand fits the width of its field (30_encoding.md R50). -/

namespace Sys2Proof

/-- Every pointer operand is a value of `AW` bits and every length operand a value of `LW` bits (00_scope.md R6,
30_encoding.md R50, R56). -/
def Instr.wellFormed (w : Widths) : Instr → Bool
  | .init => true
  | .keccakP => true
  | .absorbSha3_224 p n => w.ptrFits p && w.lenFits n
  | .absorbSha3_256 p n => w.ptrFits p && w.lenFits n
  | .absorbSha3_384 p n => w.ptrFits p && w.lenFits n
  | .absorbSha3_512 p n => w.ptrFits p && w.lenFits n
  | .absorbShake128 p n => w.ptrFits p && w.lenFits n
  | .absorbShake256 p n => w.ptrFits p && w.lenFits n
  | .squeeze q m => w.ptrFits q && w.lenFits m
  | .sha3_224 p n q => w.ptrFits p && w.lenFits n && w.ptrFits q
  | .sha3_256 p n q => w.ptrFits p && w.lenFits n && w.ptrFits q
  | .sha3_384 p n q => w.ptrFits p && w.lenFits n && w.ptrFits q
  | .sha3_512 p n q => w.ptrFits p && w.lenFits n && w.ptrFits q
  | .shake128 p n q m => w.ptrFits p && w.lenFits n && w.ptrFits q && w.lenFits m
  | .shake256 p n q m => w.ptrFits p && w.lenFits n && w.ptrFits q && w.lenFits m

/-- All five fields of a transaction fit their widths: what a real transaction always does (30_encoding.md R50). -/
def Transaction.wellFormed (w : Widths) (t : Transaction) : Bool :=
  w.ptrFits t.msgPtr && w.lenFits t.msgLen && w.ptrFits t.outPtr && w.lenFits t.outLen

end Sys2Proof
end

