-- ==== Sys2Proof/Decode.lean ====
section
/-! DEFINITION. Decoding a transaction into a command, total and rejecting by name, and encoding a command as a transaction.
The decoder reads the fields of the command word (30_encoding.md R51 to R53, R57); the encoder writes the words of the
opcode map (R55). The two are written from different tables of the spec, so that their agreement says something. -/

namespace Sys2Proof

/-- Why a transaction is no command. -/
inductive DecodeError where
  /-- The command word is none of the fifteen (30_encoding.md R57). -/
  | reservedCommand
  /-- An operand field the format uses holds a number its width cannot carry: no transaction of the hardware (assumption 9). -/
  | fieldTooWide
  deriving DecidableEq, Repr

/-- `OPC`, bits 7:4 of the command word (30_encoding.md R51). -/
def opcField (cw : BitVec 8) : BitVec 4 := cw.extractLsb' 4 4

/-- `ALGF`, bits 3:0 of the command word (30_encoding.md R51). -/
def algField (cw : BitVec 8) : BitVec 4 := cw.extractLsb' 0 4

/-- The parameter set of an `ALGF` value; 6..15 are reserved (30_encoding.md R53). -/
def Alg.ofField (f : BitVec 4) : Option Alg :=
  match f.toNat with
  | 0 => some .sha3_224
  | 1 => some .sha3_256
  | 2 => some .sha3_384
  | 3 => some .sha3_512
  | 4 => some .shake128
  | 5 => some .shake256
  | _ => none

/-- The command word's meaning by class and parameter set (30_encoding.md R52); `none` is a reserved word (R57). -/
def Opcode.ofWord (cw : BitVec 8) : Option Opcode :=
  match (opcField cw).toNat with
  | 0 => if algField cw = 0 then some .init else none
  | 1 => if algField cw = 0 then some .keccakP else none
  | 2 => (Alg.ofField (algField cw)).map .absorb
  | 3 => if algField cw = 0 then some .squeeze else none
  | 4 => (Alg.ofField (algField cw)).map .oneshot
  | _ => none

/-- The format of each operation (30_encoding.md R52, R55): one-shots are HF for the four fixed-output sets and HX for
the two variable-output ones. -/
def Opcode.format : Opcode → Format
  | .init => .N
  | .keccakP => .N
  | .absorb _ => .A
  | .squeeze => .Q
  | .oneshot .sha3_224 => .HF
  | .oneshot .sha3_256 => .HF
  | .oneshot .sha3_384 => .HF
  | .oneshot .sha3_512 => .HF
  | .oneshot .shake128 => .HX
  | .oneshot .shake256 => .HX

/-- The command of an operation with the operand fields its format uses; the other fields are not examined
(30_encoding.md R50). -/
def Opcode.toInstr (o : Opcode) (t : Transaction) : Instr :=
  match o with
  | .init => .init
  | .keccakP => .keccakP
  | .absorb .sha3_224 => .absorbSha3_224 t.msgPtr t.msgLen
  | .absorb .sha3_256 => .absorbSha3_256 t.msgPtr t.msgLen
  | .absorb .sha3_384 => .absorbSha3_384 t.msgPtr t.msgLen
  | .absorb .sha3_512 => .absorbSha3_512 t.msgPtr t.msgLen
  | .absorb .shake128 => .absorbShake128 t.msgPtr t.msgLen
  | .absorb .shake256 => .absorbShake256 t.msgPtr t.msgLen
  | .squeeze => .squeeze t.outPtr t.outLen
  | .oneshot .sha3_224 => .sha3_224 t.msgPtr t.msgLen t.outPtr
  | .oneshot .sha3_256 => .sha3_256 t.msgPtr t.msgLen t.outPtr
  | .oneshot .sha3_384 => .sha3_384 t.msgPtr t.msgLen t.outPtr
  | .oneshot .sha3_512 => .sha3_512 t.msgPtr t.msgLen t.outPtr
  | .oneshot .shake128 => .shake128 t.msgPtr t.msgLen t.outPtr t.outLen
  | .oneshot .shake256 => .shake256 t.msgPtr t.msgLen t.outPtr t.outLen

/-- Decoding, step 1 of 30_encoding.md R60: the command word is looked up, then the operand fields of its format are
taken at their face value (R56). -/
def decode (w : Widths) (t : Transaction) : Except DecodeError Instr :=
  match Opcode.ofWord t.cw with
  | none => .error .reservedCommand
  | some o => if (o.toInstr t).wellFormed w then .ok (o.toInstr t) else .error .fieldTooWide

/-- The operation of a command. -/
def Instr.opcode : Instr → Opcode
  | .init => .init
  | .keccakP => .keccakP
  | .absorbSha3_224 _ _ => .absorb .sha3_224
  | .absorbSha3_256 _ _ => .absorb .sha3_256
  | .absorbSha3_384 _ _ => .absorb .sha3_384
  | .absorbSha3_512 _ _ => .absorb .sha3_512
  | .absorbShake128 _ _ => .absorb .shake128
  | .absorbShake256 _ _ => .absorb .shake256
  | .squeeze _ _ => .squeeze
  | .sha3_224 _ _ _ => .oneshot .sha3_224
  | .sha3_256 _ _ _ => .oneshot .sha3_256
  | .sha3_384 _ _ _ => .oneshot .sha3_384
  | .sha3_512 _ _ _ => .oneshot .sha3_512
  | .shake128 _ _ _ _ => .oneshot .shake128
  | .shake256 _ _ _ _ => .oneshot .shake256

/-- The command word of each operation: the opcode map of 30_encoding.md R55, row by row. -/
def Opcode.word : Opcode → BitVec 8
  | .init => 0x00#8
  | .keccakP => 0x10#8
  | .absorb .sha3_224 => 0x20#8
  | .absorb .sha3_256 => 0x21#8
  | .absorb .sha3_384 => 0x22#8
  | .absorb .sha3_512 => 0x23#8
  | .absorb .shake128 => 0x24#8
  | .absorb .shake256 => 0x25#8
  | .squeeze => 0x30#8
  | .oneshot .sha3_224 => 0x40#8
  | .oneshot .sha3_256 => 0x41#8
  | .oneshot .sha3_384 => 0x42#8
  | .oneshot .sha3_512 => 0x43#8
  | .oneshot .shake128 => 0x44#8
  | .oneshot .shake256 => 0x45#8

/-- The transaction of a command: its word and the operand fields of its format, with 0 in the fields the format does
not use (any value may be supplied there, 30_encoding.md R50). -/
def encode (i : Instr) : Transaction :=
  let cw := i.opcode.word
  match i with
  | .init => { cw, msgPtr := 0, msgLen := 0, outPtr := 0, outLen := 0 }
  | .keccakP => { cw, msgPtr := 0, msgLen := 0, outPtr := 0, outLen := 0 }
  | .absorbSha3_224 p n => { cw, msgPtr := p, msgLen := n, outPtr := 0, outLen := 0 }
  | .absorbSha3_256 p n => { cw, msgPtr := p, msgLen := n, outPtr := 0, outLen := 0 }
  | .absorbSha3_384 p n => { cw, msgPtr := p, msgLen := n, outPtr := 0, outLen := 0 }
  | .absorbSha3_512 p n => { cw, msgPtr := p, msgLen := n, outPtr := 0, outLen := 0 }
  | .absorbShake128 p n => { cw, msgPtr := p, msgLen := n, outPtr := 0, outLen := 0 }
  | .absorbShake256 p n => { cw, msgPtr := p, msgLen := n, outPtr := 0, outLen := 0 }
  | .squeeze q m => { cw, msgPtr := 0, msgLen := 0, outPtr := q, outLen := m }
  | .sha3_224 p n q => { cw, msgPtr := p, msgLen := n, outPtr := q, outLen := 0 }
  | .sha3_256 p n q => { cw, msgPtr := p, msgLen := n, outPtr := q, outLen := 0 }
  | .sha3_384 p n q => { cw, msgPtr := p, msgLen := n, outPtr := q, outLen := 0 }
  | .sha3_512 p n q => { cw, msgPtr := p, msgLen := n, outPtr := q, outLen := 0 }
  | .shake128 p n q m => { cw, msgPtr := p, msgLen := n, outPtr := q, outLen := m }
  | .shake256 p n q m => { cw, msgPtr := p, msgLen := n, outPtr := q, outLen := m }

/-- The transaction a word of spec/opcode_table.json stands for: the table gives a row 8 bits, the command word, and the
operand fields are zero. -/
def tableTransaction (w : Nat) : Transaction :=
  { cw := BitVec.ofNat 8 w, msgPtr := 0, msgLen := 0, outPtr := 0, outLen := 0 }

/-- What the decoder reads from the `nbits` bits `w` numbered as spec/opcode_table.json numbers them. The command word is
the whole of the table's bits, so only 8 bits are a row of the table. -/
def decodeTableWord (nbits w : Nat) : Option Instr :=
  if nbits = 8 ∧ w < 2 ^ 8 then
    match decode Config.defaultWidths (tableTransaction w) with
    | .ok i => some i
    | .error _ => none
  else none

end Sys2Proof
end

