-- ==== Sys2Proof/Machine/State.lean ====
section
/-! DEFINITION. The state of the machine: everything the spec gives it, as plain data, the state after reset, and the
reasons a step can stop. -/

namespace Sys2Proof.Machine

/-- Five lanes of one row: `A[0,y] .. A[4,y]` (00_scope.md glossary, 10_state.md R11). -/
structure Row where
  x0 : Lane
  x1 : Lane
  x2 : Lane
  x3 : Lane
  x4 : Lane
  deriving DecidableEq, Repr

/-- The 1600-bit state as a 5 x 5 matrix of lanes, row by row (10_state.md R10, R12): the flat index `x + 5*y` runs
through the rows in order. -/
structure Lanes where
  y0 : Row
  y1 : Row
  y2 : Row
  y3 : Row
  y4 : Row
  deriving DecidableEq, Repr

/-- The row of five zero lanes. -/
def Row.zero : Row := ⟨0#64, 0#64, 0#64, 0#64, 0#64⟩

/-- `S <- 0`: zero in all 25 lanes (00_scope.md R231). -/
def Lanes.zero : Lanes := ⟨Row.zero, Row.zero, Row.zero, Row.zero, Row.zero⟩

/-- The four states of the per-computation state machine, in the order of their codes 0..3 (10_state.md R16). -/
inductive Phase where
  | empty | absorbing | squeezing | done
  deriving DecidableEq, Repr

/-- Memory: the listed bytes, by strictly rising address. -/
abbrev Memory := List Host.Cell

/-- A run of addresses `base .. base + size - 1` that the memory admits (20_memory.md R36). -/
structure Region where
  base : Nat
  size : Nat
  deriving DecidableEq, Repr

/-- What the host does next (00_scope.md R8): the inputs of the block. Each happens between two commands, never inside one
(00_scope.md R7, 70_reset_and_hazards.md R216). DESIGN CHOICE (assumption 7). -/
inductive HostEvent where
  /-- The host issues a command transaction (30_encoding.md R50). -/
  | issue (t : Transaction)
  /-- The host (or another agent) writes one byte of its memory (20_memory.md R40, 70_reset_and_hazards.md R213). -/
  | store (addr : Nat) (value : Byte)
  /-- The block is reset (10_state.md R23, 70_reset_and_hazards.md R210, R212). -/
  | reset
  deriving DecidableEq, Repr

/-- The two buffers of a command (20_memory.md R33). -/
inductive Buffer where
  | message | output
  deriving DecidableEq, Repr

/-- The machine's state. `S`, `phase` and `alg` are the block's three registers (10_state.md R20); `mem` is the host's
memory (20_memory.md R32); `readable`, `writable` and `widths` are the parameters of the spec (20_memory.md R36,
00_scope.md R6), which no step changes; `host` is the model's own list of the host's next actions (assumption 7). -/
structure State where
  /-- `S`, 25 lanes (10_state.md R10). -/
  S : Lanes
  /-- `PHASE` (10_state.md R16). -/
  phase : Phase
  /-- `ALG` (10_state.md R17): one of six values, or absent, which is the spec's own value of it after reset (R23;
  93_implementation_defined.md U4, U6; assumption 4). -/
  alg : Option Alg
  /-- The host's memory. -/
  mem : Memory
  /-- The addresses the memory admits for reading. -/
  readable : List Region
  /-- The addresses the memory admits for writing. -/
  writable : List Region
  /-- `AW` and `LW`. -/
  widths : Widths
  /-- The host's next actions, the nearest first. -/
  host : List HostEvent
  deriving DecidableEq, Repr

/-- Why the machine stops with a fault: never. The spec's table of exception causes is empty (60_exceptions.md R190), and
no behaviour has the treatment 'fault' or 'stuck' (93_implementation_defined.md). Having no constructor is safe. -/
inductive Fault where
  deriving DecidableEq, Repr

/-- Why the model gives a step no meaning (60_exceptions.md R193). -/
inductive Refusal where
  /-- An instruction that has no meaning yet, raised by an arm of `exec`; safe. No arm raises it. -/
  | notModelled (mnemonic : String)
  /-- `ReservedCommand`: the command word is none of the fifteen; raised by `step` (30_encoding.md R57); safe. -/
  | reservedCommand
  /-- `WrongPhase`: the command is not admitted in the current phase; raised by ABSORB and SQUEEZE
  (44_computation_state_machine.md R171); safe. -/
  | wrongPhase
  /-- `BufferNotAdmitted` for the named buffer; raised by ABSORB, SQUEEZE and the one-shots (20_memory.md R36,
  60_exceptions.md R194); safe. -/
  | bufferNotAdmitted (b : Buffer)
  /-- An operand field holds a number its width cannot carry; raised by `step`; no transaction of the hardware is
  refused by it (assumption 9); safe. -/
  | fieldTooWide
  /-- SQUEEZE with `PHASE = SQUEEZING` and no value in `ALG`, where `PS(ALG)` means nothing: no run reaches it
  (10_state.md R24; assumption 5); safe. -/
  | algAbsent
  /-- The host stores at an address outside the `AW`-bit address space; raised by `step` (20_memory.md R32;
  assumption 8); safe. -/
  | hostStoreOutsideMemory
  deriving DecidableEq, Repr

/-- The machine right after reset (10_state.md R23, 70_reset_and_hazards.md R210): `S = 0`, `PHASE = EMPTY`, `ALG` absent.
The parameters have the values the log names: the default widths (assumption 1), the whole address space admitted
(assumption 2), memory with nothing listed (assumption 3), no host action pending (assumption 7). -/
def State.reset : State :=
  { S := Lanes.zero
    phase := .empty
    alg := none
    mem := []
    readable := [{ base := 0, size := 2 ^ Config.defaultWidths.aw }]
    writable := [{ base := 0, size := 2 ^ Config.defaultWidths.aw }]
    widths := Config.defaultWidths
    host := [] }

end Sys2Proof.Machine
end

