-- ==== Sys2Proof/Machine/Ops.lean ====
section
/-! DEFINITION. The shared operations: lanes and bytes of the state, bytes of memory, admission of buffers, updates of the
registers, and the checks a command makes before it changes anything. The block takes no exception and returns from none
(60_exceptions.md R190, R195, R196), so there is no operation for either. -/

namespace Sys2Proof.Machine

/-! ### Lanes -/

/-- `rotl64(v, n)`: bit `i` of `v` becomes bit `(i + n) mod 64` (00_scope.md R231, 40_keccak_p_permutation.md R70). -/
def rotl64 (v : Lane) (n : Nat) : Lane := v.rotateLeft n

/-- The lane at column `x` of a row, `x` modulo 5 (10_state.md R11). -/
def Row.lane (r : Row) (x : Nat) : Lane :=
  match x % 5 with
  | 0 => r.x0
  | 1 => r.x1
  | 2 => r.x2
  | 3 => r.x3
  | _ => r.x4

/-- The row with `v` at column `x`, `x` modulo 5. -/
def Row.setLane (r : Row) (x : Nat) (v : Lane) : Row :=
  match x % 5 with
  | 0 => { r with x0 := v }
  | 1 => { r with x1 := v }
  | 2 => { r with x2 := v }
  | 3 => { r with x3 := v }
  | _ => { r with x4 := v }

/-- The row whose lane at `x` is `f x`, for `x` in 0..4. -/
def Row.tabulate (f : Nat → Lane) : Row := ⟨f 0, f 1, f 2, f 3, f 4⟩

/-- Row `y` of the state, `y` modulo 5 (10_state.md R11). -/
def Lanes.row (A : Lanes) (y : Nat) : Row :=
  match y % 5 with
  | 0 => A.y0
  | 1 => A.y1
  | 2 => A.y2
  | 3 => A.y3
  | _ => A.y4

/-- The state with `r` as row `y`, `y` modulo 5. -/
def Lanes.setRow (A : Lanes) (y : Nat) (r : Row) : Lanes :=
  match y % 5 with
  | 0 => { A with y0 := r }
  | 1 => { A with y1 := r }
  | 2 => { A with y2 := r }
  | 3 => { A with y3 := r }
  | _ => { A with y4 := r }

/-- `A[x,y]`: index arithmetic on `x` and `y` is modulo 5 (10_state.md R11). -/
def Lanes.lane (A : Lanes) (x y : Nat) : Lane := (A.row y).lane x

/-- `A[x,y] <- v` (00_scope.md R231). -/
def Lanes.setLane (A : Lanes) (x y : Nat) (v : Lane) : Lanes := A.setRow y ((A.row y).setLane x v)

/-- The state whose lane at `(x, y)` is `f x y`, for `x` and `y` in 0..4: a new state computed from the old one, so that
no step is an in-place update (40_keccak_p_permutation.md, opening). -/
def Lanes.tabulate (f : Nat → Nat → Lane) : Lanes :=
  ⟨Row.tabulate fun x => f x 0, Row.tabulate fun x => f x 1, Row.tabulate fun x => f x 2,
   Row.tabulate fun x => f x 3, Row.tabulate fun x => f x 4⟩

/-- `L[i]`, the lane with flat index `i` in 0..24: `L[i] = A[i mod 5, i div 5]` (10_state.md R12). -/
def Lanes.flat (A : Lanes) (i : Nat) : Lane := A.lane (i % 5) (i / 5)

/-- `L[i] <- v` (00_scope.md R231). -/
def Lanes.setFlat (A : Lanes) (i : Nat) (v : Lane) : Lanes := A.setLane (i % 5) (i / 5) v

/-! ### The byte view -/

/-- Byte `k` of a lane, `k` in 0..7, the least significant first (10_state.md R13). -/
def laneByte (v : Lane) (k : Nat) : Byte := v.extractLsb' (8 * k) 8

/-- The lane with byte `k` replaced, its other 56 bits kept (00_scope.md R231). -/
def setLaneByte (v : Lane) (k : Nat) (b : Byte) : Lane :=
  (v &&& ~~~(0xff#64 <<< (8 * k))) ||| (b.setWidth 64 <<< (8 * k))

/-- `le64(b0 .. b7)`: the value `b0 + 2^8*b1 + .. + 2^56*b7` (00_scope.md R231). -/
def le64 (b0 b1 b2 b3 b4 b5 b6 b7 : Byte) : Lane :=
  BitVec.ofNat 64 (b0.toNat + 2 ^ 8 * b1.toNat + 2 ^ 16 * b2.toNat + 2 ^ 24 * b3.toNat + 2 ^ 32 * b4.toNat
    + 2 ^ 40 * b5.toNat + 2 ^ 48 * b6.toNat + 2 ^ 56 * b7.toNat)

/-- `SB[k]`, byte `k` of the state, `k` in 0..199 (10_state.md R13). -/
def Lanes.byte (A : Lanes) (k : Nat) : Byte := laneByte (A.flat (k / 8)) (k % 8)

/-- `SB[k] <- b` (00_scope.md R231). -/
def Lanes.setByte (A : Lanes) (k : Nat) (b : Byte) : Lanes :=
  A.setFlat (k / 8) (setLaneByte (A.flat (k / 8)) (k % 8) b)

/-- The first `t` bytes of the state, `SB[0] .. SB[t-1]` (42_sponge_squeeze.md R121). -/
def Lanes.firstBytes (A : Lanes) (t : Nat) : List Byte := (List.range t).map A.byte

/-- A byte as the bit string it packs: bit 0 is the first bit (20_memory.md R31, 00_scope.md R230). -/
def bitsOfByte (b : Byte) : List Bool := (List.range 8).map b.getLsbD

/-- The bit string of a byte sequence (20_memory.md R31). -/
def bitsOf (M : List Byte) : List Bool := M.flatMap bitsOfByte

/-! ### Memory -/

/-- `MemRead(a, 1)`; an unlisted address reads as `Config.unlistedByte` (20_memory.md R34; assumption 3). -/
def Memory.read : Memory → Nat → Byte
  | [], _ => Config.unlistedByte
  | (b, v) :: m, a => if a = b then v else Memory.read m a

/-- `MemWrite(a, 1, v)`, keeping the canonical form: writing the value an unlisted address reads as removes the entry. -/
def Memory.write : Memory → Nat → Byte → Memory
  | [], a, v => if v = Config.unlistedByte then [] else [(a, v)]
  | (b, u) :: m, a, v =>
    if a < b then (if v = Config.unlistedByte then (b, u) :: m else (a, v) :: (b, u) :: m)
    else if a = b then (if v = Config.unlistedByte then m else (a, v) :: m)
    else (b, u) :: Memory.write m a v

/-- The canonical form: addresses strictly rising, and no entry equal to what an unlisted address reads as. -/
abbrev Memory.wf (m : Memory) : Prop :=
  m.Pairwise (fun c d => c.1 < d.1) ∧ ∀ c ∈ m, c.2 ≠ Config.unlistedByte

/-- Every listed address is one of the `AW`-bit address space (20_memory.md R32). -/
abbrev Memory.within (m : Memory) (bound : Nat) : Prop := ∀ c ∈ m, c.1 < bound

/-- The bytes of a buffer in ascending order, each read once: `MemRead(ptr + i, 1)` for `i` in `0 .. len-1`
(20_memory.md R33, R34). -/
def Memory.readBytes (m : Memory) (ptr len : Nat) : List Byte := (List.range len).map fun i => Memory.read m (ptr + i)

/-- Bytes stored in ascending order, each once: `MemWrite(ptr + i, 1, Z[i])` (20_memory.md R33, R34). -/
def Memory.writeBytes : Memory → Nat → List Byte → Memory
  | m, _, [] => m
  | m, ptr, b :: bs => Memory.writeBytes (Memory.write m ptr b) (ptr + 1) bs

/-! ### Admission of buffers -/

/-- Address `a` lies in one of the regions. -/
def admits (rs : List Region) (a : Nat) : Bool := rs.any fun r => decide (r.base ≤ a) && decide (a < r.base + r.size)

/-- Every address from `lo` up to (not including) `hi` lies in one of the regions, decided on the bounds of the regions
instead of address by address: what a region leaves below it and above it must be covered by the others. -/
def covers : List Region → Nat → Nat → Bool
  | [], lo, hi => decide (hi ≤ lo)
  | r :: rs, lo, hi => decide (hi ≤ lo) || (covers rs lo (min hi r.base) && covers rs (max lo (r.base + r.size)) hi)

/-- `admitted(ptr, len)` of 20_memory.md R36 over a set of regions: a buffer of length 0 passes without any check; else
it does not run past the top of the address space and the memory admits every byte of it. -/
def admitted (w : Widths) (rs : List Region) (ptr len : Nat) : Bool :=
  decide (len = 0) || (decide (ptr + len ≤ 2 ^ w.aw) && covers rs ptr (ptr + len))

/-- The message buffer is admitted for reading (20_memory.md R36). -/
def State.admittedRead (s : State) (ptr len : Nat) : Bool := admitted s.widths s.readable ptr len

/-- The output buffer is admitted for writing (20_memory.md R36). -/
def State.admittedWrite (s : State) (ptr len : Nat) : Bool := admitted s.widths s.writable ptr len

/-! ### Updates of the state, one per field that a step writes -/

/-- `S <- v`. -/
def State.withS (s : State) (v : Lanes) : State := { s with S := v }

/-- `PHASE <- v`. -/
def State.withPhase (s : State) (v : Phase) : State := { s with phase := v }

/-- `ALG <- v`. -/
def State.withAlg (s : State) (v : Option Alg) : State := { s with alg := v }

/-- The memory after the block's or the host's stores. -/
def State.withMem (s : State) (v : Memory) : State := { s with mem := v }

/-- The host's actions that remain. -/
def State.withHost (s : State) (v : List HostEvent) : State := { s with host := v }

/-- A fresh state object: `S <- 0 ; PHASE <- EMPTY`, with `ALG` left as it is (44_computation_state_machine.md R172,
43_parameter_sets_and_wrappers.md R150). -/
def State.fresh (s : State) : State := (s.withS Lanes.zero).withPhase .empty

/-- Reset of the block: a fresh state object and no value in `ALG`; memory is not changed (10_state.md R23,
70_reset_and_hazards.md R210). -/
def State.blockReset (s : State) : State := s.fresh.withAlg none

/-! ### The checks before execution -/

/-- What one command answers. -/
abbrev Result := Host.Outcome State Fault Refusal

/-- Check 2 of 30_encoding.md R60: the phase admits the command, else `refuse WrongPhase`, nothing changed. -/
def requirePhase (p : Phase) (s : State) (k : Result) : Result :=
  if s.phase = p then k else .refused .wrongPhase

/-- Check 3 of 30_encoding.md R60 for the message buffer (20_memory.md R36). -/
def requireRead (ptr len : Nat) (s : State) (k : Result) : Result :=
  if s.admittedRead ptr len then k else .refused (.bufferNotAdmitted .message)

/-- Check 3 of 30_encoding.md R60 for the output buffer (20_memory.md R36). -/
def requireWrite (ptr len : Nat) (s : State) (k : Result) : Result :=
  if s.admittedWrite ptr len then k else .refused (.bufferNotAdmitted .output)

end Sys2Proof.Machine
end

