-- ==== Sys2Proof/Machine/Operands.lean ====
section
/-! DEFINITION. What the `ALGF` operand selects: the six constant parameter tuples, and the output length they and `OUT_LEN`
give. Pointers and lengths are used at their face value (30_encoding.md R56), so they need no operation here. -/

namespace Sys2Proof.Machine

/-- The output mode of a parameter set (43_parameter_sets_and_wrappers.md R140). -/
inductive OutputMode where
  | fixed (d : Nat)
  | variable
  deriving DecidableEq, Repr

/-- A parameter tuple: rate and capacity in bytes, the domain suffix bits, the first pad byte and the output mode
(43_parameter_sets_and_wrappers.md R140). -/
structure ParamSet where
  rate : Nat
  capacity : Nat
  suffix : List Bool
  sfx : Byte
  mode : OutputMode
  deriving DecidableEq, Repr

/-- The table of 43_parameter_sets_and_wrappers.md R140, row by row. -/
def PS : Alg → ParamSet
  | .sha3_224 => { rate := 144, capacity := 56, suffix := [false, true], sfx := 0x06#8, mode := .fixed 28 }
  | .sha3_256 => { rate := 136, capacity := 64, suffix := [false, true], sfx := 0x06#8, mode := .fixed 32 }
  | .sha3_384 => { rate := 104, capacity := 96, suffix := [false, true], sfx := 0x06#8, mode := .fixed 48 }
  | .sha3_512 => { rate := 72, capacity := 128, suffix := [false, true], sfx := 0x06#8, mode := .fixed 64 }
  | .shake128 => { rate := 168, capacity := 32, suffix := [true, true, true, true], sfx := 0x1f#8, mode := .variable }
  | .shake256 => { rate := 136, capacity := 64, suffix := [true, true, true, true], sfx := 0x1f#8, mode := .variable }

/-- The output length `n`: `d` for a fixed-output set, whatever `OUT_LEN` holds, and `OUT_LEN` for a variable-output one
(42_sponge_squeeze.md R123). -/
def outputLength (a : Alg) (outLen : Nat) : Nat :=
  match (PS a).mode with
  | .fixed d => d
  | .variable => outLen

end Sys2Proof.Machine
end

