-- ==== Sys2Proof/Machine/Flags.lean ====
section
/-! DEFINITION. Status of the block. There is no flag and no condition code (10_state.md R19); the one status a host can
read is `PHASE` (10_state.md R20, 60_exceptions.md R191). -/

namespace Sys2Proof.Machine

/-- The 2-bit code of a phase (10_state.md R16). -/
def Phase.code : Phase → BitVec 2
  | .empty => 0#2
  | .absorbing => 1#2
  | .squeezing => 2#2
  | .done => 3#2

/-- The 3-bit code of a parameter set in `ALG` (10_state.md R17, 30_encoding.md R53). -/
def algCode : Alg → BitVec 3
  | .sha3_224 => 0#3
  | .sha3_256 => 1#3
  | .sha3_384 => 2#3
  | .sha3_512 => 3#3
  | .shake128 => 4#3
  | .shake256 => 5#3

/-- What the host reads as status: the code in `PHASE` (10_state.md R20, R25). -/
def State.status (s : State) : BitVec 2 := s.phase.code

/-- Everything of the machine that the host can see between commands: `PHASE` and its own memory, neither `S` nor `ALG`
(10_state.md R25). -/
def State.hostView (s : State) : BitVec 2 × Memory := (s.status, s.mem)

end Sys2Proof.Machine
end

