-- ==== Sys2Proof/Machine/Control.lean ====
section
/-! DEFINITION. The one command that manages the block: `INIT` (44_computation_state_machine.md R172, R175). -/

namespace Sys2Proof.Machine

/-- Command `INIT` (44_computation_state_machine.md R172): `S <- 0`, `PHASE <- EMPTY`, `ALG` and memory as they are;
admitted in every phase. -/
def execInit (s : State) : Result := .next s.fresh

end Sys2Proof.Machine
end

