-- ==== Sys2Proof/Machine/Permutation.lean ====
section
/-! DEFINITION. The Keccak-p[1600,24] permutation: the two constant tables with their generators, the five steps, the round,
the 24 rounds, and the command `KECCAK_P` (40_keccak_p_permutation.md). -/

namespace Sys2Proof.Machine

/-- The rotation offsets `RHO[x,y]` by flat index `x + 5*y` (40_keccak_p_permutation.md R72). -/
def rhoTable : List Nat :=
  [0, 1, 62, 28, 27,   36, 44, 6, 55, 20,   3, 10, 43, 25, 39,   41, 45, 15, 21, 8,   18, 2, 61, 56, 14]

/-- `RHO[x,y]`, coordinates modulo 5. -/
def RHO (x y : Nat) : Nat := rhoTable.getD (x % 5 + 5 * (y % 5)) 0

/-- The round constants (40_keccak_p_permutation.md R78). -/
def rcTable : List Lane :=
  [0x0000000000000001#64, 0x0000000000008082#64, 0x800000000000808A#64, 0x8000000080008000#64,
   0x000000000000808B#64, 0x0000000080000001#64, 0x8000000080008081#64, 0x8000000000008009#64,
   0x000000000000008A#64, 0x0000000000000088#64, 0x0000000080008009#64, 0x000000008000000A#64,
   0x000000008000808B#64, 0x800000000000008B#64, 0x8000000000008089#64, 0x8000000000008003#64,
   0x8000000000008002#64, 0x8000000000000080#64, 0x000000000000800A#64, 0x800000008000000A#64,
   0x8000000080008081#64, 0x8000000000008080#64, 0x0000000080000001#64, 0x8000000080008008#64]

/-- `RC[ir]`, read only with `ir` in 0..23 (10_state.md R21, 40_keccak_p_permutation.md R77). -/
def RC (ir : Nat) : Lane := rcTable.getD ir 0#64

/-- `C[x]`: the parity of column `x` (40_keccak_p_permutation.md R71). -/
def columnParity (A : Lanes) (x : Nat) : Lane :=
  A.lane x 0 ^^^ A.lane x 1 ^^^ A.lane x 2 ^^^ A.lane x 3 ^^^ A.lane x 4

/-- `D[x] = C[(x-1) mod 5] ^ rotl64(C[(x+1) mod 5], 1)`, with `x - 1` written `x + 4` (40_keccak_p_permutation.md R71;
two terms, 90_conflicts.md C3). -/
def thetaEffect (A : Lanes) (x : Nat) : Lane := columnParity A (x + 4) ^^^ rotl64 (columnParity A (x + 1)) 1

/-- `THETA` (40_keccak_p_permutation.md R71). -/
def theta (A : Lanes) : Lanes := Lanes.tabulate fun x y => A.lane x y ^^^ thetaEffect A x

/-- `RHO`, the step (40_keccak_p_permutation.md R74). -/
def rho (A : Lanes) : Lanes := Lanes.tabulate fun x y => rotl64 (A.lane x y) (RHO x y)

/-- `PI`: the lane at `(x, y)` moves to `(y, 2x+3y)`, written as the rule's equal form
`A'[x,y] = A[(x + 3*y) mod 5, x]` (40_keccak_p_permutation.md R75). -/
def pi (A : Lanes) : Lanes := Lanes.tabulate fun x y => A.lane (x + 3 * y) x

/-- `CHI`: the next lane of the row complemented, and the one after (40_keccak_p_permutation.md R76). -/
def chi (A : Lanes) : Lanes :=
  Lanes.tabulate fun x y => A.lane x y ^^^ (~~~A.lane (x + 1) y &&& A.lane (x + 2) y)

/-- `IOTA`: only lane (0,0) changes (40_keccak_p_permutation.md R77). -/
def iota (A : Lanes) (ir : Nat) : Lanes := A.setLane 0 0 (A.lane 0 0 ^^^ RC ir)

/-- `ROUND(A, ir)` (40_keccak_p_permutation.md R80). -/
def keccakRound (A : Lanes) (ir : Nat) : Lanes := iota (chi (pi (rho (theta A)))) ir

/-- `KECCAK_P(A)`: 24 rounds, `ir` ascending from 0 to 23 (40_keccak_p_permutation.md R81). Irreducible, so that no
unification runs the 24 rounds; `unfold keccakP` and the kernel still see its body. -/
@[irreducible] def keccakP (A : Lanes) : Lanes := (List.range Config.NR).foldl keccakRound A

/-- One step of the walk that generates the offsets: `(x, y) = (y, (2*x + 3*y) mod 5)` (40_keccak_p_permutation.md R73). -/
def rhoWalk (p : Nat × Nat) : Nat × Nat := (p.2, (2 * p.1 + 3 * p.2) % 5)

/-- The generated offsets as pairs of position and value, in the order the generator writes them: (0,0) first, then
`t` = 0..23 (40_keccak_p_permutation.md R73). -/
def rhoGenerated : List ((Nat × Nat) × Nat) :=
  ((0, 0), 0) :: (List.range 24).map fun t => (Nat.iterate rhoWalk t (1, 0), (t + 1) * (t + 2) / 2 % 64)

/-- One step of the shift register on its eight bits, `R[0]` first (40_keccak_p_permutation.md R79). -/
def lfsrStep (R : List Bool) : List Bool :=
  let R' := false :: R
  let top := R'.getD 8 false
  ([0, 4, 5, 6].foldl (fun Q i => Q.set i (xor (Q.getD i false) top)) R').take 8

/-- `rc(t)` (40_keccak_p_permutation.md R79). -/
def rcBit (t : Nat) : Bool :=
  if t % 255 = 0 then true
  else (Nat.iterate lfsrStep (t % 255) [true, false, false, false, false, false, false, false]).getD 0 false

/-- The generated round constant: bit `2^j - 1` is `rc(j + 7*ir)`, `j` in 0..6, every other bit 0
(40_keccak_p_permutation.md R79). -/
def rcGenerated (ir : Nat) : Lane :=
  (List.range 7).foldl (fun v j => v ||| (BitVec.ofNat 64 (rcBit (j + 7 * ir)).toNat <<< (2 ^ j - 1))) 0#64

/-- Command `KECCAK_P` (40_keccak_p_permutation.md R82): the permutation in place; `EMPTY` goes to `DONE`, any other phase
stays. Memory and `ALG` are not touched. It is refused in no phase (assumption 6 for `ABSORBING`). -/
def execKeccakP (s : State) : Result :=
  let s1 := s.withS (keccakP s.S)
  .next (if s.phase = .empty then s1.withPhase .done else s1)

end Sys2Proof.Machine
end

