-- ==== Sys2Proof/Machine/Absorb.lean ====
section
/-! DEFINITION. Padding, absorbing, and the six commands `ABSORB.<alg>` (41_sponge_absorb.md). -/

namespace Sys2Proof.Machine

/-- The pad bytes `T` for a message of length `Lm`: `q = r - (Lm mod r)` zero bytes, the first ORed with `sfx`, the last
with 0x80 (41_sponge_absorb.md R101; 90_conflicts.md C2). -/
def padBytes (Lm r : Nat) (sfx : Byte) : List Byte :=
  let q := r - Lm % r
  ((List.replicate q 0#8).modify 0 (· ||| sfx)).modify (q - 1) (· ||| 0x80#8)

/-- `PAD(M, r, sfx)` (41_sponge_absorb.md R101). -/
def pad (M : List Byte) (r : Nat) (sfx : Byte) : List Byte := M ++ padBytes M.length r sfx

/-- `XOR_BLOCK`: `SB[j] <- SB[j] ^ Bk[j]` for each byte of the block, ascending from `j` (41_sponge_absorb.md R103). -/
def xorBlockFrom (A : Lanes) (j : Nat) : List Byte → Lanes
  | [] => A
  | b :: bs => xorBlockFrom (A.setByte j (A.byte j ^^^ b)) (j + 1) bs

/-- `XOR_BLOCK(S, Bk, r)` for a block of `r` bytes (41_sponge_absorb.md R103). -/
def xorBlock (A : Lanes) (block : List Byte) : Lanes := xorBlockFrom A 0 block

/-- Block `k` of the padded message: `P[k*r .. (k+1)*r)` (41_sponge_absorb.md R104). -/
def blockOf (P : List Byte) (r k : Nat) : List Byte := (P.drop (k * r)).take r

/-- `ABSORB_FN(S, M, r, sfx)`: each block XORed in and permuted, ascending, the last included
(41_sponge_absorb.md R104). Irreducible, so that no unification runs the blocks. -/
@[irreducible] def absorbFn (A : Lanes) (M : List Byte) (r : Nat) (sfx : Byte) : Lanes :=
  (List.range ((pad M r sfx).length / r)).foldl (fun A k => keccakP (xorBlock A (blockOf (pad M r sfx) r k))) A

/-- What absorbing the message `M` under `a` does to the registers: `ALG` latched, `PHASE` through `ABSORBING`, which is
held only while the command runs, to `SQUEEZING` (41_sponge_absorb.md R106, 43_parameter_sets_and_wrappers.md R150). -/
def absorbInto (a : Alg) (M : List Byte) (s : State) : State :=
  let s1 := (s.withAlg (some a)).withPhase .absorbing
  let s2 := s1.withS (absorbFn s1.S M (PS a).rate (PS a).sfx)
  s2.withPhase .squeezing

/-- What the six `ABSORB.<alg>` commands share (41_sponge_absorb.md R106). -/
def absorbCommand (a : Alg) (msgPtr msgLen : Nat) (s : State) : Result :=
  requirePhase .empty s <|
  requireRead msgPtr msgLen s <|
  .next (absorbInto a (Memory.readBytes s.mem msgPtr msgLen) s)

/-- Command `ABSORB.SHA3_224`. -/
def execAbsorbSha3_224 (msgPtr msgLen : Nat) (s : State) : Result := absorbCommand .sha3_224 msgPtr msgLen s

/-- Command `ABSORB.SHA3_256`. -/
def execAbsorbSha3_256 (msgPtr msgLen : Nat) (s : State) : Result := absorbCommand .sha3_256 msgPtr msgLen s

/-- Command `ABSORB.SHA3_384`. -/
def execAbsorbSha3_384 (msgPtr msgLen : Nat) (s : State) : Result := absorbCommand .sha3_384 msgPtr msgLen s

/-- Command `ABSORB.SHA3_512`. -/
def execAbsorbSha3_512 (msgPtr msgLen : Nat) (s : State) : Result := absorbCommand .sha3_512 msgPtr msgLen s

/-- Command `ABSORB.SHAKE128`. -/
def execAbsorbShake128 (msgPtr msgLen : Nat) (s : State) : Result := absorbCommand .shake128 msgPtr msgLen s

/-- Command `ABSORB.SHAKE256`. -/
def execAbsorbShake256 (msgPtr msgLen : Nat) (s : State) : Result := absorbCommand .shake256 msgPtr msgLen s

end Sys2Proof.Machine
end

