-- ==== Sys2Proof/Machine/Squeeze.lean ====
section
/-! DEFINITION. Squeezing and the command `SQUEEZE` (42_sponge_squeeze.md). -/

namespace Sys2Proof.Machine

/-- The loop of `SQUEEZE_FN` with `m` bytes still to emit: emit `t = min(m, r)` bytes, stop when none remain, else permute
once and go on (42_sponge_squeeze.md R121). `fuel` bounds the rounds of the loop; each but a last one emits `r` bytes, so
`fuel = m` is enough for every rate of at least 1. -/
def squeezeLoop (r : Nat) : Nat → Lanes → Nat → List Byte × Lanes
  | 0, A, m => (A.firstBytes (min m r), A)
  | fuel + 1, A, m =>
    if m ≤ r then (A.firstBytes (min m r), A)
    else
      let rest := squeezeLoop r fuel (keccakP A) (m - r)
      (A.firstBytes (min m r) ++ rest.1, rest.2)

/-- `SQUEEZE_FN(S, r, n)`: the output bytes and the state they leave (42_sponge_squeeze.md R121). Irreducible, so that no unification runs the loop. -/
@[irreducible] def squeezeFn (A : Lanes) (r n : Nat) : List Byte × Lanes := squeezeLoop r n A n

/-- `nperm(n, r)`, the permutations `SQUEEZE_FN` performs (42_sponge_squeeze.md R122). -/
def nperm (n r : Nat) : Nat := if n = 0 then 0 else (n - 1) / r

/-- What squeezing `n` bytes under `a` to `outPtr` does: `S` updated, the bytes stored ascending, `PHASE <- DONE`
(42_sponge_squeeze.md R124, 43_parameter_sets_and_wrappers.md R150). -/
def squeezeOut (a : Alg) (outPtr n : Nat) (s : State) : State :=
  let ZS := squeezeFn s.S (PS a).rate n
  ((s.withS ZS.2).withMem (Memory.writeBytes s.mem outPtr ZS.1)).withPhase .done

/-- Command `SQUEEZE` (42_sponge_squeeze.md R124). With `PHASE = SQUEEZING` the register `ALG` holds a value in every
state a run reaches (10_state.md R24); without one `PS(ALG)` has no meaning (assumption 5). -/
def execSqueeze (outPtr outLen : Nat) (s : State) : Result :=
  requirePhase .squeezing s <|
  match s.alg with
  | none => .refused .algAbsent
  | some a =>
    requireWrite outPtr (outputLength a outLen) s <|
    .next (squeezeOut a outPtr (outputLength a outLen) s)

end Sys2Proof.Machine
end

