-- ==== Sys2Proof/Machine/Oneshot.lean ====
section
/-! DEFINITION. The one-shot wrappers: the pure function `HASH_FN` and the six one-shot commands
(43_parameter_sets_and_wrappers.md). -/

namespace Sys2Proof.Machine

/-- `HASH_FN(code, M, out_len)`: the output and the final state (43_parameter_sets_and_wrappers.md R142). -/
def hashFn (a : Alg) (M : List Byte) (outLen : Nat) : List Byte × Lanes :=
  squeezeFn (absorbFn Lanes.zero M (PS a).rate (PS a).sfx) (PS a).rate (outputLength a outLen)

/-- What the six one-shot commands share (43_parameter_sets_and_wrappers.md R150): both buffers are checked, then a fresh
state absorbs the message, all of it read before anything is stored, and is squeezed. Admitted in every phase
(assumption 6 for `ABSORBING`). -/
def oneshotCommand (a : Alg) (msgPtr msgLen outPtr outLen : Nat) (s : State) : Result :=
  requireRead msgPtr msgLen s <|
  requireWrite outPtr (outputLength a outLen) s <|
  .next (squeezeOut a outPtr (outputLength a outLen)
    (absorbInto a (Memory.readBytes s.mem msgPtr msgLen) s.fresh))

/-- Command `SHA3_224` (43_parameter_sets_and_wrappers.md R151); format HF carries no `OUT_LEN` and a fixed-output set
does not look at it. -/
def execSha3_224 (msgPtr msgLen outPtr : Nat) (s : State) : Result := oneshotCommand .sha3_224 msgPtr msgLen outPtr 0 s

/-- Command `SHA3_256` (43_parameter_sets_and_wrappers.md R152). -/
def execSha3_256 (msgPtr msgLen outPtr : Nat) (s : State) : Result := oneshotCommand .sha3_256 msgPtr msgLen outPtr 0 s

/-- Command `SHA3_384` (43_parameter_sets_and_wrappers.md R153). -/
def execSha3_384 (msgPtr msgLen outPtr : Nat) (s : State) : Result := oneshotCommand .sha3_384 msgPtr msgLen outPtr 0 s

/-- Command `SHA3_512` (43_parameter_sets_and_wrappers.md R154). -/
def execSha3_512 (msgPtr msgLen outPtr : Nat) (s : State) : Result := oneshotCommand .sha3_512 msgPtr msgLen outPtr 0 s

/-- Command `SHAKE128` (43_parameter_sets_and_wrappers.md R155). -/
def execShake128 (msgPtr msgLen outPtr outLen : Nat) (s : State) : Result :=
  oneshotCommand .shake128 msgPtr msgLen outPtr outLen s

/-- Command `SHAKE256` (43_parameter_sets_and_wrappers.md R156). -/
def execShake256 (msgPtr msgLen outPtr outLen : Nat) (s : State) : Result :=
  oneshotCommand .shake256 msgPtr msgLen outPtr outLen s

end Sys2Proof.Machine
end

