-- ==== Sys2Proof/Machine/Dispatch.lean ====
section
/-! DEFINITION. One arm per command: the meaning each constructor of `Instr` has (30_encoding.md R55). -/

namespace Sys2Proof.Machine

def exec (i : Instr) (s : State) : Host.Outcome State Fault Refusal :=
  match i with
  | .init => Sys2Proof.Machine.execInit s
  | .keccakP => Sys2Proof.Machine.execKeccakP s
  | .absorbSha3_224 msgPtr msgLen => Sys2Proof.Machine.execAbsorbSha3_224 msgPtr msgLen s
  | .absorbSha3_256 msgPtr msgLen => Sys2Proof.Machine.execAbsorbSha3_256 msgPtr msgLen s
  | .absorbSha3_384 msgPtr msgLen => Sys2Proof.Machine.execAbsorbSha3_384 msgPtr msgLen s
  | .absorbSha3_512 msgPtr msgLen => Sys2Proof.Machine.execAbsorbSha3_512 msgPtr msgLen s
  | .absorbShake128 msgPtr msgLen => Sys2Proof.Machine.execAbsorbShake128 msgPtr msgLen s
  | .absorbShake256 msgPtr msgLen => Sys2Proof.Machine.execAbsorbShake256 msgPtr msgLen s
  | .squeeze outPtr outLen => Sys2Proof.Machine.execSqueeze outPtr outLen s
  | .sha3_224 msgPtr msgLen outPtr => Sys2Proof.Machine.execSha3_224 msgPtr msgLen outPtr s
  | .sha3_256 msgPtr msgLen outPtr => Sys2Proof.Machine.execSha3_256 msgPtr msgLen outPtr s
  | .sha3_384 msgPtr msgLen outPtr => Sys2Proof.Machine.execSha3_384 msgPtr msgLen outPtr s
  | .sha3_512 msgPtr msgLen outPtr => Sys2Proof.Machine.execSha3_512 msgPtr msgLen outPtr s
  | .shake128 msgPtr msgLen outPtr outLen => Sys2Proof.Machine.execShake128 msgPtr msgLen outPtr outLen s
  | .shake256 msgPtr msgLen outPtr outLen => Sys2Proof.Machine.execShake256 msgPtr msgLen outPtr outLen s

end Sys2Proof.Machine
end

