-- ==== Sys2Proof/Machine/Inputs.lean ====
section
/-! DEFINITION. What each host event does to the machine: the inputs of the block, handled between commands. -/

namespace Sys2Proof.Machine

/-- A transaction the host issues: decoded first, then executed (30_encoding.md R60). The fields do not persist. -/
def issue (t : Transaction) (s : State) : Result :=
  match decode s.widths t with
  | .error .reservedCommand => .refused .reservedCommand
  | .error .fieldTooWide => .refused .fieldTooWide
  | .ok i => exec i s

/-- The host writes one byte of its memory (20_memory.md R32, R40): any address of the `AW`-bit address space
(assumption 8). -/
def hostStore (a : Nat) (v : Byte) (s : State) : Result :=
  if a < 2 ^ s.widths.aw then .next (s.withMem (Memory.write s.mem a v)) else .refused .hostStoreOutsideMemory

/-- One host event. -/
def handle (e : HostEvent) (s : State) : Result :=
  match e with
  | .issue t => issue t s
  | .store a v => hostStore a v s
  | .reset => .next s.blockReset

/-- One step of the machine: the host's next action, taken off its list before it acts, so that what a command sees is the
state the previous one left (70_reset_and_hazards.md R215). With no action pending the block waits, holding `S`, `PHASE` and
`ALG` (60_exceptions.md R204, 70_reset_and_hazards.md R211; assumption 7). -/
def nextAction (s : State) : Result :=
  match s.host with
  | [] => .next s
  | e :: rest => handle e (s.withHost rest)

/-- The state in which the host is about to issue `t`. -/
def State.issuing (s : State) (t : Transaction) : State := s.withHost (.issue t :: s.host)

end Sys2Proof.Machine
end

