-- ==== Sys2Proof/Machine/Step.lean ====
section
/-! DEFINITION. One step of the machine, and placing a command where the next step takes it. -/

namespace Sys2Proof.Machine

/-- One step: the host's next action. -/
def step (s : State) : Host.Outcome State Fault Refusal := nextAction s

/-- `s` with the table word `w` of `nbits` bits as the transaction the host issues next (assumption 7): the command word is
`w`, the operand fields are zero. Nothing else changes. -/
def State.withFetchWord (s : State) (_nbits w : Nat) : State := s.issuing (tableTransaction w)

end Sys2Proof.Machine
end

