-- ==== Sys2Proof/Safety.lean ====
section
/-! DEFINITION. What a sound state and a safe run are, in the terms the statements use. -/

namespace Sys2Proof.Machine

/-- The invariants that hold whenever no command is running: memory in its canonical form and inside the address space, and
10_state.md R24: `PHASE` is never `ABSORBING`, `PHASE = EMPTY` implies `S = 0`, and `PHASE = SQUEEZING` implies that `ALG`
holds a value. -/
abbrev State.Inv (s : State) : Prop :=
  Memory.wf s.mem ∧ Memory.within s.mem (2 ^ s.widths.aw) ∧ s.widths.Legal ∧
  s.phase ≠ .absorbing ∧ (s.phase = .empty → s.S = Lanes.zero) ∧ (s.phase = .squeezing → s.alg ≠ none)

/-- `t` follows from `s` by steps that all answer a next state. -/
inductive Reaches : State → State → Prop where
  | refl (s : State) : Reaches s s
  | tail {s t u : State} : Reaches s t → step t = .next u → Reaches s u

/-- The command runs to completion in `s`. -/
def Completes (i : Instr) (s : State) : Prop := ∃ t, exec i s = .next t

/-- No step within `n` stops: every command the host issues in them is admitted. -/
def SafeFor (n : Nat) (s : State) : Prop := ∃ t, Sys2Proof.core.run n s = .next t

end Sys2Proof.Machine
end

