-- ==== Sys2Proof/Certificates/Slice0/Obligations.lean ====
section
/-! DEFINITION. The statements for the provers. Each formalises a rule of spec/, named in its docstring. -/

namespace Sys2Proof.Spec

open Sys2Proof.Machine

/-- The admission and transition table of 44_computation_state_machine.md R171: the phase after the command, or `none` for
'refuse WrongPhase'. The table has no column for `ABSORBING`; statements that use it for that phase say so. -/
def phaseTable : Opcode → Phase → Option Phase
  | .init, _ => some .empty
  | .keccakP, .empty => some .done
  | .keccakP, p => some p
  | .absorb _, .empty => some .squeezing
  | .absorb _, _ => none
  | .squeeze, .squeezing => some .done
  | .squeeze, _ => none
  | .oneshot _, _ => some .done

/-- The bytes a command stores in state `s`: `n` of 42_sponge_squeeze.md R123 for the commands with an output buffer, 0 for
the others. -/
def storedBytes (i : Instr) (s : State) : Nat :=
  match i.opcode with
  | .squeeze => match s.alg with
    | some a => outputLength a (encode i).outLen
    | none => 0
  | .oneshot a => outputLength a (encode i).outLen
  | _ => 0

/-- Two transactions agree on the operand fields of a format (30_encoding.md R54). -/
def agreeOn (f : Format) (t u : Transaction) : Prop :=
  match f with
  | .N => True
  | .A => t.msgPtr = u.msgPtr ∧ t.msgLen = u.msgLen
  | .Q => t.outPtr = u.outPtr ∧ t.outLen = u.outLen
  | .HF => t.msgPtr = u.msgPtr ∧ t.msgLen = u.msgLen ∧ t.outPtr = u.outPtr
  | .HX => t.msgPtr = u.msgPtr ∧ t.msgLen = u.msgLen ∧ t.outPtr = u.outPtr ∧ t.outLen = u.outLen

/-- The first `n` rounds, by recursion: round index `n - 1` last (40_keccak_p_permutation.md R81). -/
def rounds : Nat → Lanes → Lanes
  | 0, A => A
  | n + 1, A => keccakRound (rounds n A) n

/-- `for j in 0 .. count-1: SB[j] <- SB[j] ^ MemRead(base + j, 1)` (41_sponge_absorb.md R105). -/
def xorFromMemory (m : Memory) (base count : Nat) (A : Lanes) : Lanes :=
  (List.range count).foldl (fun A j => A.setByte j (A.byte j ^^^ Memory.read m (base + j))) A

/-- The streaming form of absorb, which holds no padded message (41_sponge_absorb.md R105). -/
def streamAbsorb (m : Memory) (ptr len r : Nat) (sfx : Byte) (A : Lanes) : Lanes :=
  let full := len / r
  let rem := len % r
  let A1 := (List.range full).foldl (fun A k => keccakP (xorFromMemory m (ptr + k * r) r A)) A
  let A2 := xorFromMemory m (ptr + full * r) rem A1
  let A3 := A2.setByte rem (A2.byte rem ^^^ sfx)
  let A4 := A3.setByte (r - 1) (A3.byte (r - 1) ^^^ 0x80#8)
  keccakP A4

/-- What absorbing the empty message under `a` leaves of `A`: one block, padding only, XORed in and permuted
(41_sponge_absorb.md R102, R106). -/
def emptyAbsorbed (a : Alg) (A : Lanes) : Lanes := keccakP (xorBlock A (padBytes 0 (PS a).rate (PS a).sfx))

/-- An `ABSORB` command of parameter set `a` with command word `cw`: it completes from `EMPTY` with an admitted message and
leaves exactly this; it is refused for its phase, whatever the buffer, and else for its buffer. -/
def AbsorbCompletes (cw : BitVec 8) (cmd : Nat → Nat → Instr) (a : Alg) (r : Nat) (sfx : Byte) : Prop :=
  ∀ (p n : Nat) (s : State), (encode (cmd p n)).cw = cw ∧
    (s.phase = .empty → s.admittedRead p n = true →
      exec (cmd p n) s = .next { s with
        S := absorbFn s.S (Memory.readBytes s.mem p n) r sfx
        phase := .squeezing
        alg := some a }) ∧
    (s.phase ≠ .empty → exec (cmd p n) s = .refused .wrongPhase) ∧
    (s.phase = .empty → ¬ s.admittedRead p n = true → exec (cmd p n) s = .refused (.bufferNotAdmitted .message))

/-- A one-shot command with command word `cw` completes in every phase with both buffers admitted, and leaves exactly this:
the output of the message as it stood, stored at `q`. -/
def OneshotCompletes (cw : BitVec 8) (cmd : Instr) (a : Alg) (p n q : Nat) (r : Nat) (sfx : Byte) (out : Nat) : Prop :=
  (encode cmd).cw = cw ∧ ∀ s : State, s.admittedRead p n = true → s.admittedWrite q out = true →
    exec cmd s = .next { s with
      S := (squeezeFn (absorbFn Lanes.zero (Memory.readBytes s.mem p n) r sfx) r out).2
      phase := .done
      alg := some a
      mem := Memory.writeBytes s.mem q (squeezeFn (absorbFn Lanes.zero (Memory.readBytes s.mem p n) r sfx) r out).1 }

/-- The one-shot command equals `INIT ; ABSORB.<alg> ; SQUEEZE` in a state the host can observe where both buffers are
admitted. -/
def EqualsThreeCommands (one absorb squeeze : Instr) : Prop :=
  ∀ s : State, s.phase ≠ .absorbing → s.admittedRead (encode one).msgPtr (encode one).msgLen = true →
    s.admittedWrite (encode one).outPtr (storedBytes one s) = true →
    ∃ s1 s2 t, exec .init s = .next s1 ∧ exec absorb s1 = .next s2 ∧ exec squeeze s2 = .next t ∧ exec one s = .next t

end Sys2Proof.Spec

open Sys2Proof Sys2Proof.Machine Sys2Proof.Spec

/-! ### Encoding and decoding -/

/-- 30_encoding.md R55, R56: no bit of a command's encoding is dropped. -/
def Obligations.DecodeOfEncodedCommand : Prop :=
  ∀ (w : Widths) (i : Instr), i.wellFormed w = true → decode w (encode i) = .ok i

/-- 30_encoding.md R50, R55: what decodes to a command carries that command's word and, in the fields its format uses, its
operands. -/
def Obligations.DecodedTransactionCarriesCommand : Prop :=
  ∀ (w : Widths) (t : Transaction) (i : Instr), decode w t = .ok i →
    (encode i).cw = t.cw ∧ agreeOn i.opcode.format (encode i) t ∧ i.wellFormed w = true

/-- 30_encoding.md R50: a field the format does not use has no effect on what is decoded, nor on what the step does. -/
def Obligations.UnusedFieldsHaveNoEffect : Prop :=
  ∀ (t u : Transaction) (o : Opcode), Opcode.ofWord t.cw = some o → u.cw = t.cw → agreeOn o.format t u →
    (∀ w : Widths, decode w u = decode w t) ∧
    ∀ (s : State) (rest : List HostEvent),
      step (s.withHost (.issue u :: rest)) = step (s.withHost (.issue t :: rest))

/-- 30_encoding.md R57: which words are reserved, how many, and that issuing one is refused. -/
def Obligations.ReservedWordsAreRefused : Prop :=
  (∀ cw : BitVec 8, Opcode.ofWord cw = none ↔
    (5 ≤ (opcField cw).toNat ∨
     ((opcField cw = 0 ∨ opcField cw = 1 ∨ opcField cw = 3) ∧ algField cw ≠ 0) ∨
     ((opcField cw = 2 ∨ opcField cw = 4) ∧ 6 ≤ (algField cw).toNat))) ∧
  ((List.range 256).filter fun n => Opcode.ofWord (BitVec.ofNat 8 n) = none).length = 241 ∧
  ∀ (s : State) (t : Transaction) (rest : List HostEvent), s.host = .issue t :: rest → Opcode.ofWord t.cw = none →
    step s = .refused .reservedCommand

/-- 30_encoding.md R55 (a sanity statement): command words written out bit by bit, one of each class, decode to their
commands with the operands in place. -/
def Obligations.WordsOfTheMapDecode : Prop :=
  decode Config.defaultWidths ⟨0b00000000#8, 1, 2, 3, 4⟩ = .ok .init ∧
  decode Config.defaultWidths ⟨0b00010000#8, 1, 2, 3, 4⟩ = .ok .keccakP ∧
  decode Config.defaultWidths ⟨0b00100011#8, 1, 2, 3, 4⟩ = .ok (.absorbSha3_512 1 2) ∧
  decode Config.defaultWidths ⟨0b00110000#8, 1, 2, 3, 4⟩ = .ok (.squeeze 3 4) ∧
  decode Config.defaultWidths ⟨0b01000001#8, 1, 2, 3, 4⟩ = .ok (.sha3_256 1 2 3) ∧
  decode Config.defaultWidths ⟨0b01000100#8, 1, 2, 3, 4⟩ = .ok (.shake128 1 2 3 4) ∧
  decode Config.defaultWidths ⟨0b00100110#8, 1, 2, 3, 4⟩ = .error .reservedCommand

/-! ### The step -/

/-- 30_encoding.md R60, 70_reset_and_hazards.md R215: a step on an issued transaction that decodes to `i` is `exec i` on the
state with that action taken off the host's list (the list is the model's, assumption 7). -/
def Obligations.StepRunsDecodedCommand : Prop :=
  ∀ (s : State) (t : Transaction) (rest : List HostEvent) (i : Instr),
    s.host = .issue t :: rest → decode s.widths t = .ok i → step s = exec i (s.withHost rest)

/-- 60_exceptions.md R204, 70_reset_and_hazards.md R211: with nothing to do the block holds its state; a step with no host
action is the model's choice (assumption 7). -/
def Obligations.IdleStepHoldsState : Prop :=
  ∀ s : State, s.host = [] → step s = .next s

/-- 20_memory.md R40, 00_scope.md R8: a byte the host writes before a command is what the memory then holds; the block's
registers and every other byte are kept. That stores are events of their own is the model's choice (assumptions 7, 8). -/
def Obligations.HostStoreLandsBetweenCommands : Prop :=
  ∀ (s : State) (a : Nat) (v : Byte) (rest : List HostEvent),
    s.host = .store a v :: rest → a < 2 ^ s.widths.aw → Memory.wf s.mem →
    ∃ t, step s = .next t ∧ Memory.read t.mem a = v ∧ (∀ x, x ≠ a → Memory.read t.mem x = Memory.read s.mem x) ∧
      t = { s with mem := t.mem, host := rest }

/-- 70_reset_and_hazards.md R210, R212; 10_state.md R23: what a reset leaves, from any state: `S` zero, `PHASE` EMPTY, `ALG`
absent, memory unchanged; INIT has the same effect on `S` and `PHASE` and leaves `ALG`. -/
def Obligations.ResetCreatesFreshState : Prop :=
  ∀ (s : State) (rest : List HostEvent), s.host = .reset :: rest →
    ∃ t u, step s = .next t ∧ exec .init s = .next u ∧
      (∀ x y, t.S.lane x y = 0#64) ∧ t.phase = .empty ∧ t.alg = none ∧ t.mem = s.mem ∧
      t.readable = s.readable ∧ t.writable = s.writable ∧ t.widths = s.widths ∧ t.host = rest ∧
      u.S = t.S ∧ u.phase = t.phase ∧ u.alg = s.alg

/-- 10_state.md R23: the values of the registers in the machine's state after reset. -/
def Obligations.RegistersAfterReset : Prop :=
  (∀ i, i < 25 → State.reset.S.flat i = 0#64) ∧ State.reset.phase = .empty ∧ State.reset.status = 0#2 ∧
    State.reset.alg = none

/-- 60_exceptions.md R194, 30_encoding.md R60: the order of the refusals on an issued transaction: reserved word, then phase,
then message buffer, then output buffer, each whatever the later ones would say. -/
def Obligations.FirstRefusalReasonIsReported : Prop :=
  ∀ (s : State) (t : Transaction) (rest : List HostEvent), s.host = .issue t :: rest → s.Inv →
    (Opcode.ofWord t.cw = none → step s = .refused .reservedCommand) ∧
    ∀ i : Instr, decode s.widths t = .ok i →
      (phaseTable i.opcode s.phase = none → step s = .refused .wrongPhase) ∧
      (phaseTable i.opcode s.phase ≠ none → ¬ s.admittedRead (encode i).msgPtr (encode i).msgLen = true →
        step s = .refused (.bufferNotAdmitted .message)) ∧
      (phaseTable i.opcode s.phase ≠ none → s.admittedRead (encode i).msgPtr (encode i).msgLen = true →
        ¬ s.admittedWrite (encode i).outPtr (storedBytes i s) = true →
        step s = .refused (.bufferNotAdmitted .output))

/-- 60_exceptions.md R190: every admitted command runs to completion, and only an admitted one does. -/
def Obligations.AdmittedCommandsComplete : Prop :=
  ∀ (i : Instr) (s : State), s.Inv →
    (Completes i s ↔
      phaseTable i.opcode s.phase ≠ none ∧
      s.admittedRead (encode i).msgPtr (encode i).msgLen = true ∧
      s.admittedWrite (encode i).outPtr (storedBytes i s) = true)

/-- 44_computation_state_machine.md R171: the phase a command leaves, and that it is refused `WrongPhase` exactly where the
table says so, in every phase the host can observe. -/
def Obligations.PhaseFollowsTheTable : Prop :=
  ∀ (i : Instr) (s : State), s.phase ≠ .absorbing →
    (∀ t, exec i s = .next t → phaseTable i.opcode s.phase = some t.phase) ∧
    (exec i s = .refused .wrongPhase ↔ phaseTable i.opcode s.phase = none)

/-- 60_exceptions.md R190, R193: a decoded command never faults, and between commands it is refused for the phase or for a
buffer only. -/
def Obligations.CommandsStopForTheSpecsReasonsOnly : Prop :=
  ∀ (i : Instr) (s : State),
    (∀ f, exec i s ≠ .fault f) ∧
    (s.Inv → ∀ r, exec i s = .refused r → r = .wrongPhase ∨ ∃ b, r = .bufferNotAdmitted b)

/-- 20_memory.md R36: a buffer is admitted exactly when its length is 0, or it does not wrap past the top of the address space
and each of its bytes lies in some region (one or several, adjoining or overlapping); a buffer of positive length that wraps,
or one byte of which no region admits, is refused, for every command with that buffer in a phase that admits it. -/
def Obligations.BufferOutsideAdmittedMemoryIsRefused : Prop :=
  (∀ (s : State) (p n : Nat),
    (s.admittedRead p n = true ↔ n = 0 ∨ (p + n ≤ 2 ^ s.widths.aw ∧
      ∀ k < n, ∃ r ∈ s.readable, r.base ≤ p + k ∧ p + k < r.base + r.size)) ∧
    (s.admittedWrite p n = true ↔ n = 0 ∨ (p + n ≤ 2 ^ s.widths.aw ∧
      ∀ k < n, ∃ r ∈ s.writable, r.base ≤ p + k ∧ p + k < r.base + r.size))) ∧
  ∀ (i : Instr) (s : State), s.Inv → phaseTable i.opcode s.phase ≠ none →
    (0 < (encode i).msgLen →
      (2 ^ s.widths.aw < (encode i).msgPtr + (encode i).msgLen ∨
        ∃ k < (encode i).msgLen, ∀ r ∈ s.readable,
          ¬ (r.base ≤ (encode i).msgPtr + k ∧ (encode i).msgPtr + k < r.base + r.size)) →
      exec i s = .refused (.bufferNotAdmitted .message)) ∧
    (s.admittedRead (encode i).msgPtr (encode i).msgLen = true → 0 < storedBytes i s →
      (2 ^ s.widths.aw < (encode i).outPtr + storedBytes i s ∨
        ∃ k < storedBytes i s, ∀ r ∈ s.writable,
          ¬ (r.base ≤ (encode i).outPtr + k ∧ (encode i).outPtr + k < r.base + r.size)) →
      exec i s = .refused (.bufferNotAdmitted .output))

/-- 20_memory.md R34, R36; 41_sponge_absorb.md R106, 42_sponge_squeeze.md R124, 43_parameter_sets_and_wrappers.md R155, R156:
a buffer of length 0 is not accessed and its pointer not examined, whatever is admitted. ABSORB of no bytes absorbs the
padding block; SQUEEZE of no bytes only ends the computation; a one-shot without message needs its output buffer only, one
without output its message buffer only, one with neither no memory at all. (The one-shots in phase `ABSORBING`: the model's
choice, assumption 6.) -/
def Obligations.ZeroLengthBuffersAreNotExamined : Prop :=
  ∀ (i : Instr) (a : Alg) (s : State),
    (i.opcode = .absorb a → (encode i).msgLen = 0 → s.phase = .empty →
      exec i s = .next { s with S := emptyAbsorbed a s.S, phase := .squeezing, alg := some a }) ∧
    (i.opcode = .squeeze → (encode i).outLen = 0 → s.phase = .squeezing → s.alg = some a → (PS a).mode = .variable →
      exec i s = .next { s with phase := .done }) ∧
    (i.opcode = .oneshot a → (encode i).msgLen = 0 →
      s.admittedWrite (encode i).outPtr (outputLength a (encode i).outLen) = true →
      exec i s = .next { s with
        S := (squeezeFn (emptyAbsorbed a Lanes.zero) (PS a).rate (outputLength a (encode i).outLen)).2
        phase := .done
        alg := some a
        mem := Memory.writeBytes s.mem (encode i).outPtr
          (squeezeFn (emptyAbsorbed a Lanes.zero) (PS a).rate (outputLength a (encode i).outLen)).1 }) ∧
    (i.opcode = .oneshot a → (PS a).mode = .variable → (encode i).outLen = 0 →
      s.admittedRead (encode i).msgPtr (encode i).msgLen = true →
      exec i s = .next { s with
        S := absorbFn Lanes.zero (Memory.readBytes s.mem (encode i).msgPtr (encode i).msgLen) (PS a).rate (PS a).sfx
        phase := .done
        alg := some a }) ∧
    (i.opcode = .oneshot a → (PS a).mode = .variable → (encode i).msgLen = 0 → (encode i).outLen = 0 →
      exec i s = .next { s with S := emptyAbsorbed a Lanes.zero, phase := .done, alg := some a })

/-! ### Invariants -/

/-- 10_state.md R24: the invariants hold after every step, from every state that meets them. -/
def Obligations.EveryStepKeepsTheInvariants : Prop :=
  ∀ s t : State, s.Inv → step s = .next t → t.Inv

/-- 10_state.md R24: the state after reset meets the invariants. -/
def Obligations.ResetMeetsTheInvariants : Prop := State.reset.Inv

/-- 20_memory.md R36, 00_scope.md R6: the parameters of the model (widths and admitted addresses) never change, along any
run; that they are fields of the state is the model's choice (assumptions 1, 2). -/
def Obligations.ParametersNeverChange : Prop :=
  ∀ s t : State, Reaches s t → t.widths = s.widths ∧ t.readable = s.readable ∧ t.writable = s.writable

/-! ### The permutation -/

/-- 40_keccak_p_permutation.md R71: the theta formula, lane by lane, and that the zero state is a fixed point. -/
def Obligations.ThetaFormula : Prop :=
  (∀ (A : Lanes) (x y : Nat), x < 5 → y < 5 →
    (theta A).lane x y = A.lane x y ^^^
      ((A.lane ((x + 4) % 5) 0 ^^^ A.lane ((x + 4) % 5) 1 ^^^ A.lane ((x + 4) % 5) 2 ^^^ A.lane ((x + 4) % 5) 3 ^^^
          A.lane ((x + 4) % 5) 4) ^^^
        (A.lane ((x + 1) % 5) 0 ^^^ A.lane ((x + 1) % 5) 1 ^^^ A.lane ((x + 1) % 5) 2 ^^^ A.lane ((x + 1) % 5) 3 ^^^
          A.lane ((x + 1) % 5) 4).rotateLeft 1)) ∧
  theta Lanes.zero = Lanes.zero

/-- 40_keccak_p_permutation.md R74: every lane is rotated left by its offset, bit `z` going to bit `z + RHO[x,y]` modulo 64;
lane (0,0) is unchanged. -/
def Obligations.RhoRotatesEachLane : Prop :=
  (∀ (A : Lanes) (x y z : Nat), x < 5 → y < 5 → z < 64 →
    ((rho A).lane x y).getLsbD ((z + RHO x y) % 64) = (A.lane x y).getLsbD z) ∧
  ∀ A : Lanes, (rho A).lane 0 0 = A.lane 0 0

/-- 40_keccak_p_permutation.md R75: the lane at (x, y) moves to (y, 2x+3y mod 5); the same by the table `src` of the rule. -/
def Obligations.PiMovesEachLane : Prop :=
  (∀ (A : Lanes) (x y : Nat), x < 5 → y < 5 →
    (pi A).lane y ((2 * x + 3 * y) % 5) = A.lane x y ∧ (pi A).lane x y = A.lane ((x + 3 * y) % 5) x) ∧
  (∀ (A : Lanes) (i : Nat), i < 25 →
    (pi A).flat i = A.flat ([0, 6, 12, 18, 24, 3, 9, 10, 16, 22, 1, 7, 13, 19, 20, 4, 5, 11, 17, 23, 2, 8, 14, 15, 21].getD i 0)) ∧
  ∀ (A : Lanes) (j : Nat), j < 25 →
    (pi A).flat ([0, 10, 20, 5, 15, 16, 1, 11, 21, 6, 7, 17, 2, 12, 22, 23, 8, 18, 3, 13, 14, 24, 9, 19, 4].getD j 0) = A.flat j

/-- 40_keccak_p_permutation.md R76: chi bit by bit, and its two fixed points. -/
def Obligations.ChiCombinesRowNeighbours : Prop :=
  (∀ (A : Lanes) (x y z : Nat), x < 5 → y < 5 → z < 64 →
    ((chi A).lane x y).getLsbD z =
      ((A.lane x y).getLsbD z ^^ (!(A.lane ((x + 1) % 5) y).getLsbD z && (A.lane ((x + 2) % 5) y).getLsbD z))) ∧
  chi Lanes.zero = Lanes.zero ∧
  chi (Lanes.tabulate fun _ _ => BitVec.allOnes 64) = Lanes.tabulate fun _ _ => BitVec.allOnes 64

/-- 40_keccak_p_permutation.md R77: iota changes lane (0,0) by the round constant and no other lane. -/
def Obligations.IotaChangesOneLane : Prop :=
  ∀ (A : Lanes) (ir x y : Nat), ir < 24 → x < 5 → y < 5 →
    (iota A ir).lane x y = if x = 0 ∧ y = 0 then A.lane 0 0 ^^^ RC ir else A.lane x y

/-- 40_keccak_p_permutation.md R80: the order of the five steps; the round index enters through iota only. -/
def Obligations.RoundAppliesFiveStepsInOrder : Prop :=
  (∀ (A : Lanes) (ir : Nat), ir < 24 → keccakRound A ir = iota (chi (pi (rho (theta A)))) ir) ∧
  (∀ (A : Lanes) (ir ir' x y : Nat), ir < 24 → ir' < 24 → x < 5 → y < 5 → ¬ (x = 0 ∧ y = 0) →
    (keccakRound A ir).lane x y = (keccakRound A ir').lane x y) ∧
  keccakRound Lanes.zero 0 = Lanes.zero.setLane 0 0 1#64

/-- 40_keccak_p_permutation.md R81: 24 rounds, index 0 first and index 23 last; the zero state is no fixed point. -/
def Obligations.PermutationIsTwentyFourRounds : Prop :=
  (∀ A : Lanes, keccakP A = rounds 24 A) ∧
  (keccakP Lanes.zero).lane 0 0 = 0xF1258F7940E1DDE7#64 ∧ (keccakP Lanes.zero).lane 1 0 = 0x84D5CCF933C0478A#64

/-- 40_keccak_p_permutation.md R72, R73: the walk of the generator visits all 25 positions, each once, and gives the table;
the 25 offsets are different and in 0..63. -/
def Obligations.RotationOffsetsAreTheGenerated : Prop :=
  (∀ e ∈ rhoGenerated, e.1.1 < 5 ∧ e.1.2 < 5 ∧ RHO e.1.1 e.1.2 = e.2 ∧ e.2 < 64) ∧ (rhoGenerated.map fun e => e.1.1 + 5 * e.1.2).Nodup ∧
  rhoGenerated.length = 25 ∧ (rhoGenerated.map fun e => e.2).Nodup ∧
  ((List.range 25).map fun i => RHO (i % 5) (i / 5)) =
    [0, 1, 62, 28, 27, 36, 44, 6, 55, 20, 3, 10, 43, 25, 39, 41, 45, 15, 21, 8, 18, 2, 61, 56, 14]

/-- 40_keccak_p_permutation.md R78, R79: the shift register gives the round constants; only bits 0, 1, 3, 7, 15, 31 and 63
are ever set in one. -/
def Obligations.RoundConstantsAreTheGenerated : Prop :=
  (∀ ir < 24, RC ir = rcGenerated ir) ∧
  (∀ ir < 24, ∀ z < 64, (RC ir).getLsbD z = true → z = 0 ∨ z = 1 ∨ z = 3 ∨ z = 7 ∨ z = 15 ∨ z = 31 ∨ z = 63) ∧
  (List.range 16).map rcBit = [true, false, false, false, false, false, false, false, true, false, true, true, false,
    false, false, true]

/-- 95_test_vectors.md section 4: each of the five steps is a bijection on states. -/
def Obligations.FiveStepsAreBijections : Prop :=
  Function.Bijective theta ∧ Function.Bijective rho ∧ Function.Bijective pi ∧ Function.Bijective chi ∧
    ∀ ir < 24, Function.Bijective fun A => iota A ir

/-- 95_test_vectors.md section 4, 40_keccak_p_permutation.md R81: `KECCAK_P` is a permutation of the states, so the command
loses no state: two runs that leave equal `S`, whatever else they leave, began with equal `S`. -/
def Obligations.KeccakPermutationIsABijection : Prop :=
  Function.Bijective keccakP ∧
  ∀ s s' t t' : State, exec .keccakP s = .next t → exec .keccakP s' = .next t' → t.S = t'.S → s.S = s'.S

/-! ### The byte view -/

/-- 10_state.md R13, 20_memory.md R30: byte `k` of the state is eight bits of lane `k div 8`, and a lane is its eight bytes,
the least significant first; writing one byte leaves the other 199. -/
def Obligations.ByteViewIsLittleEndian : Prop :=
  (∀ (A : Lanes) (k z : Nat), k < 200 → z < 8 → (A.byte k).getLsbD z = (A.flat (k / 8)).getLsbD (8 * (k % 8) + z)) ∧
  (∀ (A : Lanes) (i : Nat), i < 25 →
    A.flat i = le64 (A.byte (8 * i)) (A.byte (8 * i + 1)) (A.byte (8 * i + 2)) (A.byte (8 * i + 3)) (A.byte (8 * i + 4))
      (A.byte (8 * i + 5)) (A.byte (8 * i + 6)) (A.byte (8 * i + 7))) ∧
  ∀ (A : Lanes) (k j : Nat) (b : Byte), k < 200 → j < 200 → (A.setByte k b).byte j = if j = k then b else A.byte j

/-! ### Padding and absorbing -/

/-- 41_sponge_absorb.md R101: the padded message is the message and its pad bytes, a multiple of the rate long; the three
shapes of the pad bytes. -/
def Obligations.PadBytesHaveThreeShapes : Prop :=
  ∀ (Lm r : Nat) (sfx : Byte), 0 < r →
    (∀ M : List Byte, pad M r sfx = M ++ padBytes M.length r sfx ∧ (pad M r sfx).length = M.length + (r - M.length % r) ∧
      (pad M r sfx).length % r = 0) ∧
    (r - Lm % r = 1 → padBytes Lm r sfx = [sfx ||| 0x80#8]) ∧
    (2 ≤ r - Lm % r → padBytes Lm r sfx = sfx :: (List.replicate (r - Lm % r - 2) 0#8 ++ [0x80#8]))

/-- 41_sponge_absorb.md R102: the padded length, the number of blocks, which blocks are message only, what the last one is,
and that the pad bytes do not depend on the message's contents. -/
def Obligations.PaddingFillsWholeBlocks : Prop :=
  ∀ (M : List Byte) (r : Nat) (sfx : Byte), 0 < r →
    (pad M r sfx).length = (M.length / r + 1) * r ∧
    M.length + 1 ≤ (pad M r sfx).length ∧ (pad M r sfx).length ≤ M.length + r ∧
    (padBytes M.length r sfx).length = r - M.length % r ∧
    (∀ k < M.length / r, blockOf (pad M r sfx) r k = blockOf M r k) ∧
    blockOf (pad M r sfx) r (M.length / r) = M.drop (M.length / r * r) ++ padBytes M.length r sfx ∧
    ∀ M' : List Byte, M'.length % r = M.length % r → padBytes M'.length r sfx = padBytes M.length r sfx

/-- 41_sponge_absorb.md R100, R101: on bits, the padded message is the message, the domain suffix, a 1, the least number of
0 bits that makes the total a multiple of the rate, and a final 1. -/
def Obligations.BytePaddingIsBitPadding : Prop :=
  ∀ (a : Alg) (M : List Byte), ∃ j : Nat,
    bitsOf (pad M (PS a).rate (PS a).sfx) =
      bitsOf M ++ (PS a).suffix ++ [true] ++ List.replicate j false ++ [true] ∧
    ((bitsOf M).length + (PS a).suffix.length + 1 + j + 1) % (8 * (PS a).rate) = 0 ∧
    ∀ j' < j, ((bitsOf M).length + (PS a).suffix.length + 1 + j' + 1) % (8 * (PS a).rate) ≠ 0

/-- 41_sponge_absorb.md R103: a block of `r` bytes is XORed into the first `r` bytes, the others are not written; the same
by lanes. -/
def Obligations.XorBlockChangesTheRatePartOnly : Prop :=
  ∀ (A : Lanes) (a : Alg) (block : List Byte), block.length = (PS a).rate →
    (∀ k < 200, (xorBlock A block).byte k =
      if k < (PS a).rate then A.byte k ^^^ block.getD k 0#8 else A.byte k) ∧
    ∀ i < 25, (xorBlock A block).flat i =
      if i < (PS a).rate / 8 then
        A.flat i ^^^ le64 (block.getD (8 * i) 0#8) (block.getD (8 * i + 1) 0#8) (block.getD (8 * i + 2) 0#8)
          (block.getD (8 * i + 3) 0#8) (block.getD (8 * i + 4) 0#8) (block.getD (8 * i + 5) 0#8)
          (block.getD (8 * i + 6) 0#8) (block.getD (8 * i + 7) 0#8)
      else A.flat i

/-- 41_sponge_absorb.md R104: absorbing block by block: a full first block is XORed in and permuted before the rest is
absorbed; a rest shorter than the rate is padded, XORed in and permuted once. -/
def Obligations.AbsorbTakesBlocksInOrder : Prop :=
  ∀ (A : Lanes) (r : Nat) (sfx : Byte), 0 < r →
    (∀ B M : List Byte, B.length = r → absorbFn A (B ++ M) r sfx = absorbFn (keccakP (xorBlock A B)) M r sfx) ∧
    ∀ M : List Byte, M.length < r → absorbFn A M r sfx = keccakP (xorBlock A (M ++ padBytes M.length r sfx))

/-- 41_sponge_absorb.md R105: the streaming form, reading memory byte by byte and holding no padded message, gives the state
of `ABSORB_FN` on the message buffer. -/
def Obligations.StreamingAbsorbEqualsAbsorb : Prop :=
  ∀ (a : Alg) (m : Memory) (ptr len : Nat) (A : Lanes),
    streamAbsorb m ptr len (PS a).rate (PS a).sfx A = absorbFn A (Memory.readBytes m ptr len) (PS a).rate (PS a).sfx

/-! ### Squeezing -/

/-- 42_sponge_squeeze.md R120, R122: exactly `n` bytes, and the state permuted `nperm(n, r)` times: none for `n <= r`, one
for `n = r + 1`. -/
def Obligations.SqueezeLengthAndPermutationCount : Prop :=
  ∀ (A : Lanes) (r n : Nat), 0 < r →
    (squeezeFn A r n).1.length = n ∧
    (squeezeFn A r n).2 = Nat.iterate keccakP (if n = 0 then 0 else (n - 1) / r) A ∧
    (n ≤ r → (squeezeFn A r n).2 = A) ∧ (n = r + 1 → (squeezeFn A r n).2 = keccakP A)

/-- 42_sponge_squeeze.md R121: output byte `i` is byte `i mod r` of the state after `i div r` permutations,
and which state is left. -/
def Obligations.SqueezeOutputByteByByte : Prop :=
  ∀ (A : Lanes) (r n : Nat), 0 < r →
    (squeezeFn A r n).1.length = n ∧
    (∀ i < n, (squeezeFn A r n).1[i]? = some ((Nat.iterate keccakP (i / r) A).byte (i % r))) ∧
    (squeezeFn A r n).2 = Nat.iterate keccakP (nperm n r) A

/-- 42_sponge_squeeze.md R125: prefix-extensibility. -/
def Obligations.SqueezePrefixExtensibility : Prop :=
  ∀ (A : Lanes) (r n k : Nat), 0 < r → (squeezeFn A r (n + k)).1.take n = (squeezeFn A r n).1

/-- 40_keccak_p_permutation.md R82, 70_reset_and_hazards.md R219: a permutation before squeezing skips one rate-sized chunk
of output. -/
def Obligations.PermutationSkipsOneChunk : Prop :=
  ∀ (A : Lanes) (r n : Nat), 0 < r → (squeezeFn (keccakP A) r n).1 = (squeezeFn A r (r + n)).1.drop r

/-- 43_parameter_sets_and_wrappers.md R140, R141: the table, and the facts about it. -/
def Obligations.ParameterTable : Prop :=
  (List.map (fun a => ((PS a).rate, (PS a).capacity, (PS a).suffix, (PS a).sfx, (PS a).mode))
    [.sha3_224, .sha3_256, .sha3_384, .sha3_512, .shake128, .shake256] =
    [(144, 56, [false, true], 0x06#8, .fixed 28), (136, 64, [false, true], 0x06#8, .fixed 32),
     (104, 96, [false, true], 0x06#8, .fixed 48), (72, 128, [false, true], 0x06#8, .fixed 64),
     (168, 32, [true, true, true, true], 0x1f#8, .variable), (136, 64, [true, true, true, true], 0x1f#8, .variable)]) ∧
  List.map (fun n => Alg.ofField (BitVec.ofNat 4 n)) [0, 1, 2, 3, 4, 5] =
    [some .sha3_224, some .sha3_256, some .sha3_384, some .sha3_512, some .shake128, some .shake256] ∧
  ∀ a : Alg, (PS a).rate + (PS a).capacity = 200 ∧ (PS a).rate % 8 = 0 ∧
    ∀ d, (PS a).mode = .fixed d → d ≤ (PS a).rate ∧ (PS a).capacity = 2 * d

/-- 42_sponge_squeeze.md R126: a fixed-output parameter set always gives its digest length, whatever the message and
`OUT_LEN`, and squeezes without permuting; SQUEEZE under one leaves `S` unchanged. -/
def Obligations.FixedOutputLengthAlways : Prop :=
  ∀ (M : List Byte) (outLen : Nat),
    (hashFn .sha3_224 M outLen).1.length = 28 ∧ (hashFn .sha3_256 M outLen).1.length = 32 ∧
    (hashFn .sha3_384 M outLen).1.length = 48 ∧ (hashFn .sha3_512 M outLen).1.length = 64 ∧
    ∀ (a : Alg) (d : Nat), (PS a).mode = .fixed d →
      (hashFn a M outLen).1.length = d ∧
      (hashFn a M outLen).2 = absorbFn Lanes.zero M (PS a).rate (PS a).sfx ∧
      ∀ (q : Nat) (s t : State), s.alg = some a → exec (.squeeze q outLen) s = .next t → t.S = s.S

/-! ### What each command does -/

/-- 44_computation_state_machine.md R172: INIT completes in every state; `S` is zero, `PHASE` EMPTY, everything else as it
was. -/
def Obligations.InitCreatesFreshState : Prop :=
  (encode .init).cw = 0x00#8 ∧ (∀ i < 25, Lanes.zero.flat i = 0#64) ∧
  ∀ s : State, exec .init s = .next { s with S := Lanes.zero, phase := .empty }

/-- 40_keccak_p_permutation.md R82: KECCAK_P completes in every state; `S` is permuted, `EMPTY` goes to `DONE`, everything
else as it was. In phase `ABSORBING`, which no host observes, this is the model's choice (assumption 6). -/
def Obligations.KeccakPPermutesInPlace : Prop :=
  (encode .keccakP).cw = 0x10#8 ∧
  ∀ s : State, exec .keccakP s = .next { s with
    S := keccakP s.S, phase := if s.phase = .empty then .done else s.phase }

/-- 41_sponge_absorb.md R106: what the six ABSORB commands do, with the command word, rate and first pad byte of each, and
when each is refused. -/
def Obligations.AbsorbAbsorbsTheMessage : Prop :=
  AbsorbCompletes 0x20#8 .absorbSha3_224 .sha3_224 144 0x06#8 ∧
  AbsorbCompletes 0x21#8 .absorbSha3_256 .sha3_256 136 0x06#8 ∧
  AbsorbCompletes 0x22#8 .absorbSha3_384 .sha3_384 104 0x06#8 ∧
  AbsorbCompletes 0x23#8 .absorbSha3_512 .sha3_512 72 0x06#8 ∧
  AbsorbCompletes 0x24#8 .absorbShake128 .shake128 168 0x1f#8 ∧
  AbsorbCompletes 0x25#8 .absorbShake256 .shake256 136 0x1f#8

/-- 42_sponge_squeeze.md R124, R123: what SQUEEZE does: `n = d` under a fixed-output parameter set, whatever `OUT_LEN` holds,
and `n = OUT_LEN` under a variable-output one; and when it is refused. -/
def Obligations.SqueezeWritesTheOutput : Prop :=
  ∀ (q m : Nat) (s : State), (encode (.squeeze q m)).cw = 0x30#8 ∧
    (s.phase ≠ .squeezing → exec (.squeeze q m) s = .refused .wrongPhase) ∧
    ∀ (a : Alg) (n : Nat), s.phase = .squeezing → s.alg = some a →
      ((PS a).mode = .fixed n ∨ ((PS a).mode = .variable ∧ n = m)) →
      (s.admittedWrite q n = true →
        exec (.squeeze q m) s = .next { s with
          S := (squeezeFn s.S (PS a).rate n).2
          phase := .done
          mem := Memory.writeBytes s.mem q (squeezeFn s.S (PS a).rate n).1 }) ∧
      (¬ s.admittedWrite q n = true → exec (.squeeze q m) s = .refused (.bufferNotAdmitted .output))

/-- 42_sponge_squeeze.md R123: under a fixed-output parameter set the `OUT_LEN` of SQUEEZE is not examined. -/
def Obligations.OutLenIsIgnoredForFixedOutput : Prop :=
  ∀ (q m m' d : Nat) (a : Alg) (s : State), s.alg = some a → (PS a).mode = .fixed d →
    exec (.squeeze q m) s = exec (.squeeze q m') s

/-- 43_parameter_sets_and_wrappers.md R151 to R154: the four fixed-output one-shot commands. In phase
`ABSORBING`, which no host observes, that they complete is the model's choice (assumption 6). -/
def Obligations.FixedOneshotsHashTheMessage : Prop :=
  ∀ p n q : Nat,
    OneshotCompletes 0x40#8 (.sha3_224 p n q) .sha3_224 p n q 144 0x06#8 28 ∧
    OneshotCompletes 0x41#8 (.sha3_256 p n q) .sha3_256 p n q 136 0x06#8 32 ∧
    OneshotCompletes 0x42#8 (.sha3_384 p n q) .sha3_384 p n q 104 0x06#8 48 ∧
    OneshotCompletes 0x43#8 (.sha3_512 p n q) .sha3_512 p n q 72 0x06#8 64

/-- 43_parameter_sets_and_wrappers.md R155, R156: the two variable-output one-shot commands. In phase
`ABSORBING`, which no host observes, that they complete is the model's choice (assumption 6). -/
def Obligations.XofOneshotsHashTheMessage : Prop :=
  ∀ p n q m : Nat,
    OneshotCompletes 0x44#8 (.shake128 p n q m) .shake128 p n q 168 0x1f#8 m ∧
    OneshotCompletes 0x45#8 (.shake256 p n q m) .shake256 p n q 136 0x1f#8 m

/-- 43_parameter_sets_and_wrappers.md R150: a one-shot command whose message buffer, or else whose output buffer, is not
admitted is refused, in every phase, before anything changes (in `ABSORBING` the model's choice, assumption 6). -/
def Obligations.OneshotIsRefusedForItsBuffers : Prop :=
  ∀ (i : Instr) (a : Alg) (s : State), i.opcode = .oneshot a →
    (¬ s.admittedRead (encode i).msgPtr (encode i).msgLen = true → exec i s = .refused (.bufferNotAdmitted .message)) ∧
    (s.admittedRead (encode i).msgPtr (encode i).msgLen = true →
      ¬ s.admittedWrite (encode i).outPtr (outputLength a (encode i).outLen) = true →
      exec i s = .refused (.bufferNotAdmitted .output))

/-- 30_encoding.md R59, 43_parameter_sets_and_wrappers.md R150: each one-shot command equals the sequence INIT, ABSORB,
SQUEEZE when the buffers of all three are admitted; for the fixed-output ones whatever `OUT_LEN` the SQUEEZE carries. -/
def Obligations.OneshotEqualsThreeCommands : Prop :=
  ∀ p n q m : Nat,
    EqualsThreeCommands (.sha3_224 p n q) (.absorbSha3_224 p n) (.squeeze q m) ∧
    EqualsThreeCommands (.sha3_256 p n q) (.absorbSha3_256 p n) (.squeeze q m) ∧
    EqualsThreeCommands (.sha3_384 p n q) (.absorbSha3_384 p n) (.squeeze q m) ∧
    EqualsThreeCommands (.sha3_512 p n q) (.absorbSha3_512 p n) (.squeeze q m) ∧
    EqualsThreeCommands (.shake128 p n q m) (.absorbShake128 p n) (.squeeze q m) ∧
    EqualsThreeCommands (.shake256 p n q m) (.absorbShake256 p n) (.squeeze q m)

/-! ### Frames -/

/-- 10_state.md R15, 20_memory.md R32, R34: INIT, KECCAK_P and the six ABSORB commands store nothing and change no
parameter; INIT and KECCAK_P leave `ALG`. The registers they may change are `S` and `PHASE`, and for ABSORB also `ALG`. -/
def Obligations.NonStoringCommandsFrame : Prop :=
  ∀ (i : Instr) (s t : State), exec i s = .next t →
    (i.opcode = .init ∨ i.opcode = .keccakP ∨ ∃ a, i.opcode = .absorb a) →
    (∀ x, Memory.read t.mem x = Memory.read s.mem x) ∧ t.mem = s.mem ∧
    t.readable = s.readable ∧ t.writable = s.writable ∧ t.widths = s.widths ∧ t.host = s.host ∧
    ((i.opcode = .init ∨ i.opcode = .keccakP) → t.alg = s.alg)

/-- 42_sponge_squeeze.md R124, 43_parameter_sets_and_wrappers.md R150, 20_memory.md R33, R34: SQUEEZE and the six one-shots
store their output at `OUT_PTR` and nowhere else: byte `k` of the buffer is output byte `k`, every address outside the
buffer reads as before; SQUEEZE leaves `ALG`; no parameter changes. -/
def Obligations.StoringCommandsFrame : Prop :=
  ∀ (i : Instr) (s t : State), exec i s = .next t → Memory.wf s.mem →
    (i.opcode = .squeeze ∨ ∃ a, i.opcode = .oneshot a) →
    (∀ x, x < (encode i).outPtr ∨ (encode i).outPtr + storedBytes i s ≤ x →
      Memory.read t.mem x = Memory.read s.mem x) ∧
    (∀ a, i.opcode = .squeeze → s.alg = some a → ∀ k < storedBytes i s,
      some (Memory.read t.mem ((encode i).outPtr + k)) = (squeezeFn s.S (PS a).rate (storedBytes i s)).1[k]?) ∧
    (∀ a, i.opcode = .oneshot a → ∀ k < storedBytes i s,
      some (Memory.read t.mem ((encode i).outPtr + k)) =
        (hashFn a (Memory.readBytes s.mem (encode i).msgPtr (encode i).msgLen) (encode i).outLen).1[k]?) ∧
    (i.opcode = .squeeze → t.alg = s.alg) ∧
    t.readable = s.readable ∧ t.writable = s.writable ∧ t.widths = s.widths ∧ t.host = s.host

/-! ### What a command can depend on, and what it can show -/

/-- 20_memory.md R34: a command reads no byte outside its message buffer: over two memories that agree on it, it leaves the
same `S`, `PHASE` and `ALG`, and, both memories being in canonical form, stores the same output bytes. -/
def Obligations.OnlyTheMessageBufferIsRead : Prop :=
  ∀ (i : Instr) (s t : State) (m : Memory), exec i s = .next t →
    (∀ k < (encode i).msgLen, Memory.read m ((encode i).msgPtr + k) = Memory.read s.mem ((encode i).msgPtr + k)) →
    ∃ t', exec i { s with mem := m } = .next t' ∧ t'.S = t.S ∧ t'.phase = t.phase ∧ t'.alg = t.alg ∧
      (Memory.wf s.mem → Memory.wf m → ∀ k < storedBytes i s,
        Memory.read t'.mem ((encode i).outPtr + k) = Memory.read t.mem ((encode i).outPtr + k))

/-- 10_state.md R14, R25: squeezing at most one rate part shows nothing of the capacity part: over two states that agree on
the rate bytes, the host sees the same phase and the same memory. -/
def Obligations.CapacityIsNotShown : Prop :=
  ∀ (q m : Nat) (a : Alg) (s t : State) (A : Lanes), s.alg = some a → outputLength a m ≤ (PS a).rate →
    (∀ k < (PS a).rate, A.byte k = s.S.byte k) → exec (.squeeze q m) s = .next t →
    ∃ t', exec (.squeeze q m) { s with S := A } = .next t' ∧ t'.hostView = t.hostView

/-- 70_reset_and_hazards.md R222, 44_computation_state_machine.md R174: whether a command completes, and why it is refused,
depends on the command, the phase, `ALG` and the parameters, never on the message bytes or on `S`. -/
def Obligations.AdmissionIsDataIndependent : Prop :=
  ∀ (i : Instr) (s : State) (A : Lanes) (m : Memory),
    (Completes i { s with S := A, mem := m } ↔ Completes i s) ∧
    ∀ r, exec i { s with S := A, mem := m } = .refused r ↔ exec i s = .refused r

/-- 10_state.md R16, R20: the code a host reads from `PHASE` in each phase, and that it is all of the registers it sees. -/
def Obligations.HostReadsPhaseOnly : Prop :=
  (∀ s : State, (s.status = 0#2 ↔ s.phase = .empty) ∧ (s.status = 1#2 ↔ s.phase = .absorbing) ∧
    (s.status = 2#2 ↔ s.phase = .squeezing) ∧ (s.status = 3#2 ↔ s.phase = .done)) ∧
  ∀ (s : State) (A : Lanes) (a : Option Alg), ({ s with S := A, alg := a } : State).hostView = s.hostView

/-! ### Known answers of the source -/

/-- 43_parameter_sets_and_wrappers.md R152, 90_conflicts.md C1: SHA3-256 of the empty message, from any state with the output
buffer admitted, whatever the message pointer (in `ABSORBING` the model's choice, assumption 6). -/
def Obligations.EmptyMessageSha3_256Digest : Prop :=
  ∀ (p q : Nat) (s : State), Memory.wf s.mem → s.admittedWrite q 32 = true →
    ∃ t, exec (.sha3_256 p 0 q) s = .next t ∧
      (Memory.readBytes t.mem q 32).map BitVec.toNat =
        [0xa7, 0xff, 0xc6, 0xf8, 0xbf, 0x1e, 0xd7, 0x66, 0x51, 0xc1, 0x47, 0x56, 0xa0, 0x61, 0xd6, 0x62,
         0xf5, 0x80, 0xff, 0x4d, 0xe4, 0x3b, 0x49, 0xfa, 0x82, 0xd8, 0x0a, 0x4b, 0x80, 0xf8, 0x43, 0x4a]

/-- 43_parameter_sets_and_wrappers.md R155, 95_test_vectors.md S2: the first 32 bytes of SHAKE128 of the empty message, for
every output length of 32 to 168 (in `ABSORBING` the model's choice, assumption 6). -/
def Obligations.EmptyMessageShake128Output : Prop :=
  ∀ (p q n : Nat) (s : State), Memory.wf s.mem → 32 ≤ n → n ≤ 168 → s.admittedWrite q n = true →
    ∃ t, exec (.shake128 p 0 q n) s = .next t ∧
      (Memory.readBytes t.mem q 32).map BitVec.toNat =
        [0x7f, 0x9c, 0x2b, 0xa4, 0xe8, 0x8f, 0x82, 0x7d, 0x61, 0x60, 0x45, 0x50, 0x76, 0x05, 0x85, 0x3e,
         0xd7, 0x3b, 0x80, 0x93, 0xf6, 0xef, 0xbc, 0x88, 0xeb, 0x1a, 0x6e, 0xac, 0xfa, 0x66, 0xef, 0x26]
end

