-- ==== Sys2Proof/Laws/State.lean ====
section
/-! SUPPORT. One lemma per field per update of the state, so that no proof unfolds a record update. -/

namespace Sys2Proof.Machine

@[simp] theorem withS_S (s : State) (v : Lanes) : (s.withS v).S = v := (rfl)
@[simp] theorem withS_phase (s : State) (v : Lanes) : (s.withS v).phase = s.phase := (rfl)
@[simp] theorem withS_alg (s : State) (v : Lanes) : (s.withS v).alg = s.alg := (rfl)
@[simp] theorem withS_mem (s : State) (v : Lanes) : (s.withS v).mem = s.mem := (rfl)
@[simp] theorem withS_readable (s : State) (v : Lanes) : (s.withS v).readable = s.readable := (rfl)
@[simp] theorem withS_writable (s : State) (v : Lanes) : (s.withS v).writable = s.writable := (rfl)
@[simp] theorem withS_widths (s : State) (v : Lanes) : (s.withS v).widths = s.widths := (rfl)
@[simp] theorem withS_host (s : State) (v : Lanes) : (s.withS v).host = s.host := (rfl)

@[simp] theorem withPhase_S (s : State) (v : Phase) : (s.withPhase v).S = s.S := (rfl)
@[simp] theorem withPhase_phase (s : State) (v : Phase) : (s.withPhase v).phase = v := (rfl)
@[simp] theorem withPhase_alg (s : State) (v : Phase) : (s.withPhase v).alg = s.alg := (rfl)
@[simp] theorem withPhase_mem (s : State) (v : Phase) : (s.withPhase v).mem = s.mem := (rfl)
@[simp] theorem withPhase_readable (s : State) (v : Phase) : (s.withPhase v).readable = s.readable := (rfl)
@[simp] theorem withPhase_writable (s : State) (v : Phase) : (s.withPhase v).writable = s.writable := (rfl)
@[simp] theorem withPhase_widths (s : State) (v : Phase) : (s.withPhase v).widths = s.widths := (rfl)
@[simp] theorem withPhase_host (s : State) (v : Phase) : (s.withPhase v).host = s.host := (rfl)

@[simp] theorem withAlg_S (s : State) (v : Option Alg) : (s.withAlg v).S = s.S := (rfl)
@[simp] theorem withAlg_phase (s : State) (v : Option Alg) : (s.withAlg v).phase = s.phase := (rfl)
@[simp] theorem withAlg_alg (s : State) (v : Option Alg) : (s.withAlg v).alg = v := (rfl)
@[simp] theorem withAlg_mem (s : State) (v : Option Alg) : (s.withAlg v).mem = s.mem := (rfl)
@[simp] theorem withAlg_readable (s : State) (v : Option Alg) : (s.withAlg v).readable = s.readable := (rfl)
@[simp] theorem withAlg_writable (s : State) (v : Option Alg) : (s.withAlg v).writable = s.writable := (rfl)
@[simp] theorem withAlg_widths (s : State) (v : Option Alg) : (s.withAlg v).widths = s.widths := (rfl)
@[simp] theorem withAlg_host (s : State) (v : Option Alg) : (s.withAlg v).host = s.host := (rfl)

@[simp] theorem withMem_S (s : State) (v : Memory) : (s.withMem v).S = s.S := (rfl)
@[simp] theorem withMem_phase (s : State) (v : Memory) : (s.withMem v).phase = s.phase := (rfl)
@[simp] theorem withMem_alg (s : State) (v : Memory) : (s.withMem v).alg = s.alg := (rfl)
@[simp] theorem withMem_mem (s : State) (v : Memory) : (s.withMem v).mem = v := (rfl)
@[simp] theorem withMem_readable (s : State) (v : Memory) : (s.withMem v).readable = s.readable := (rfl)
@[simp] theorem withMem_writable (s : State) (v : Memory) : (s.withMem v).writable = s.writable := (rfl)
@[simp] theorem withMem_widths (s : State) (v : Memory) : (s.withMem v).widths = s.widths := (rfl)
@[simp] theorem withMem_host (s : State) (v : Memory) : (s.withMem v).host = s.host := (rfl)

@[simp] theorem withHost_S (s : State) (v : List HostEvent) : (s.withHost v).S = s.S := (rfl)
@[simp] theorem withHost_phase (s : State) (v : List HostEvent) : (s.withHost v).phase = s.phase := (rfl)
@[simp] theorem withHost_alg (s : State) (v : List HostEvent) : (s.withHost v).alg = s.alg := (rfl)
@[simp] theorem withHost_mem (s : State) (v : List HostEvent) : (s.withHost v).mem = s.mem := (rfl)
@[simp] theorem withHost_readable (s : State) (v : List HostEvent) : (s.withHost v).readable = s.readable := (rfl)
@[simp] theorem withHost_writable (s : State) (v : List HostEvent) : (s.withHost v).writable = s.writable := (rfl)
@[simp] theorem withHost_widths (s : State) (v : List HostEvent) : (s.withHost v).widths = s.widths := (rfl)
@[simp] theorem withHost_host (s : State) (v : List HostEvent) : (s.withHost v).host = v := (rfl)

@[simp] theorem fresh_S (s : State) : s.fresh.S = Lanes.zero := (rfl)
@[simp] theorem fresh_phase (s : State) : s.fresh.phase = .empty := (rfl)
@[simp] theorem fresh_alg (s : State) : s.fresh.alg = s.alg := (rfl)
@[simp] theorem fresh_mem (s : State) : s.fresh.mem = s.mem := (rfl)
@[simp] theorem fresh_readable (s : State) : s.fresh.readable = s.readable := (rfl)
@[simp] theorem fresh_writable (s : State) : s.fresh.writable = s.writable := (rfl)
@[simp] theorem fresh_widths (s : State) : s.fresh.widths = s.widths := (rfl)
@[simp] theorem fresh_host (s : State) : s.fresh.host = s.host := (rfl)

@[simp] theorem blockReset_S (s : State) : s.blockReset.S = Lanes.zero := (rfl)
@[simp] theorem blockReset_phase (s : State) : s.blockReset.phase = .empty := (rfl)
@[simp] theorem blockReset_alg (s : State) : s.blockReset.alg = none := (rfl)
@[simp] theorem blockReset_mem (s : State) : s.blockReset.mem = s.mem := (rfl)
@[simp] theorem blockReset_readable (s : State) : s.blockReset.readable = s.readable := (rfl)
@[simp] theorem blockReset_writable (s : State) : s.blockReset.writable = s.writable := (rfl)
@[simp] theorem blockReset_widths (s : State) : s.blockReset.widths = s.widths := (rfl)
@[simp] theorem blockReset_host (s : State) : s.blockReset.host = s.host := (rfl)

@[simp] theorem absorbInto_S (a : Alg) (M : List Byte) (s : State) : (absorbInto a M s).S = absorbFn s.S M (PS a).rate (PS a).sfx := (rfl)
@[simp] theorem absorbInto_phase (a : Alg) (M : List Byte) (s : State) : (absorbInto a M s).phase = .squeezing := (rfl)
@[simp] theorem absorbInto_alg (a : Alg) (M : List Byte) (s : State) : (absorbInto a M s).alg = some a := (rfl)
@[simp] theorem absorbInto_mem (a : Alg) (M : List Byte) (s : State) : (absorbInto a M s).mem = s.mem := (rfl)
@[simp] theorem absorbInto_readable (a : Alg) (M : List Byte) (s : State) : (absorbInto a M s).readable = s.readable := (rfl)
@[simp] theorem absorbInto_writable (a : Alg) (M : List Byte) (s : State) : (absorbInto a M s).writable = s.writable := (rfl)
@[simp] theorem absorbInto_widths (a : Alg) (M : List Byte) (s : State) : (absorbInto a M s).widths = s.widths := (rfl)
@[simp] theorem absorbInto_host (a : Alg) (M : List Byte) (s : State) : (absorbInto a M s).host = s.host := (rfl)

@[simp] theorem squeezeOut_S (a : Alg) (q n : Nat) (s : State) : (squeezeOut a q n s).S = (squeezeFn s.S (PS a).rate n).2 := (rfl)
@[simp] theorem squeezeOut_phase (a : Alg) (q n : Nat) (s : State) : (squeezeOut a q n s).phase = .done := (rfl)
@[simp] theorem squeezeOut_alg (a : Alg) (q n : Nat) (s : State) : (squeezeOut a q n s).alg = s.alg := (rfl)
@[simp] theorem squeezeOut_mem (a : Alg) (q n : Nat) (s : State) : (squeezeOut a q n s).mem = Memory.writeBytes s.mem q (squeezeFn s.S (PS a).rate n).1 := (rfl)
@[simp] theorem squeezeOut_readable (a : Alg) (q n : Nat) (s : State) : (squeezeOut a q n s).readable = s.readable := (rfl)
@[simp] theorem squeezeOut_writable (a : Alg) (q n : Nat) (s : State) : (squeezeOut a q n s).writable = s.writable := (rfl)
@[simp] theorem squeezeOut_widths (a : Alg) (q n : Nat) (s : State) : (squeezeOut a q n s).widths = s.widths := (rfl)
@[simp] theorem squeezeOut_host (a : Alg) (q n : Nat) (s : State) : (squeezeOut a q n s).host = s.host := (rfl)

@[simp] theorem issuing_S (s : State) (t : Transaction) : (s.issuing t).S = s.S := (rfl)
@[simp] theorem issuing_phase (s : State) (t : Transaction) : (s.issuing t).phase = s.phase := (rfl)
@[simp] theorem issuing_alg (s : State) (t : Transaction) : (s.issuing t).alg = s.alg := (rfl)
@[simp] theorem issuing_mem (s : State) (t : Transaction) : (s.issuing t).mem = s.mem := (rfl)
@[simp] theorem issuing_readable (s : State) (t : Transaction) : (s.issuing t).readable = s.readable := (rfl)
@[simp] theorem issuing_writable (s : State) (t : Transaction) : (s.issuing t).writable = s.writable := (rfl)
@[simp] theorem issuing_widths (s : State) (t : Transaction) : (s.issuing t).widths = s.widths := (rfl)
@[simp] theorem issuing_host (s : State) (t : Transaction) : (s.issuing t).host = .issue t :: s.host := (rfl)

@[simp] theorem withHost_withHost (s : State) (u v : List HostEvent) : (s.withHost u).withHost v = s.withHost v := (rfl)

@[simp] theorem withHost_self (s : State) : s.withHost s.host = s := (rfl)

@[simp] theorem admittedRead_withHost (s : State) (v : List HostEvent) (p n : Nat) :
    (s.withHost v).admittedRead p n = s.admittedRead p n := (rfl)

@[simp] theorem admittedWrite_withHost (s : State) (v : List HostEvent) (p n : Nat) :
    (s.withHost v).admittedWrite p n = s.admittedWrite p n := (rfl)

end Sys2Proof.Machine
end

