-- ==== Sys2Proof/Laws/Decode.lean ====
section
/-! SUPPORT. How the decoder's tables and the encoder's fit together, and `exec` by the five shapes of command. -/

namespace Sys2Proof

/-- The word of an operation is looked up as that operation. -/
theorem Opcode.ofWord_word (o : Opcode) : Opcode.ofWord o.word = some o := by
  rcases o with _ | _ | a | _ | a <;> first | decide | (cases a <;> decide)

/-- A command word that is looked up as an operation is the word of that operation. -/
theorem Opcode.word_of_ofWord {cw : BitVec 8} {o : Opcode} (h : Opcode.ofWord cw = some o) : o.word = cw := by
  have all : ∀ cw : BitVec 8, ∀ o, Opcode.ofWord cw = some o → o.word = cw := by decide +kernel
  exact all cw o h

/-- A command is the command of its own operation and transaction. -/
theorem Instr.toInstr_encode (i : Instr) : i.opcode.toInstr (encode i) = i := by cases i <;> rfl

/-- The operation of a command built from an operation is that operation. -/
theorem Opcode.opcode_toInstr (o : Opcode) (t : Transaction) : (o.toInstr t).opcode = o := by
  rcases o with _ | _ | a | _ | a <;> first | rfl | (cases a <;> rfl)

namespace Machine

/-! `exec` by the five shapes of command, with the operands taken from the command's transaction: five cases in the place of
fifteen for every statement about all commands. -/

theorem exec_of_init {i : Instr} (h : i.opcode = .init) (s : State) : exec i s = execInit s := by
  cases i <;> cases h
  rfl

theorem exec_of_keccakP {i : Instr} (h : i.opcode = .keccakP) (s : State) : exec i s = execKeccakP s := by
  cases i <;> cases h
  rfl

theorem exec_of_absorb {i : Instr} {a : Alg} (h : i.opcode = .absorb a) (s : State) :
    exec i s = absorbCommand a (encode i).msgPtr (encode i).msgLen s := by
  cases i <;> cases h <;> rfl

theorem exec_of_squeeze {i : Instr} (h : i.opcode = .squeeze) (s : State) :
    exec i s = execSqueeze (encode i).outPtr (encode i).outLen s := by
  cases i <;> cases h
  rfl

theorem exec_of_oneshot {i : Instr} {a : Alg} (h : i.opcode = .oneshot a) (s : State) :
    exec i s = oneshotCommand a (encode i).msgPtr (encode i).msgLen (encode i).outPtr (encode i).outLen s := by
  cases i <;> cases h <;> rfl

/-- Only ABSORB and the one-shots have a message: the length field of the others is 0 in their transaction. -/
theorem encode_msgLen_zero {i : Instr} (h : (∀ a, i.opcode ≠ .absorb a) ∧ ∀ a, i.opcode ≠ .oneshot a) :
    (encode i).msgLen = 0 := by
  cases i <;> first | rfl | exact absurd rfl (h.1 _) | exact absurd rfl (h.2 _)

end Machine
end Sys2Proof
end

