-- ==== Sys2Proof/Laws/Lanes.lean ====
section
/-! SUPPORT. The laws of the lane matrix, of its byte view and of rotation. -/

namespace Sys2Proof.Machine

/-- A coordinate below 5 is one of five: the case split every lane law rests on. -/
theorem lt_five {x : Nat} (h : x < 5) : x = 0 ∨ x = 1 ∨ x = 2 ∨ x = 3 ∨ x = 4 := by omega

@[simp] theorem Row.lane_mod (r : Row) (x : Nat) : r.lane (x % 5) = r.lane x := by
  simp [Row.lane]

@[simp] theorem Lanes.lane_mod_left (A : Lanes) (x y : Nat) : A.lane (x % 5) y = A.lane x y := by
  simp [Lanes.lane]

@[simp] theorem Lanes.lane_mod_right (A : Lanes) (x y : Nat) : A.lane x (y % 5) = A.lane x y := by
  simp [Lanes.lane, Lanes.row]

theorem Lanes.lane_congr (A : Lanes) {x x' y y' : Nat} (hx : x % 5 = x' % 5) (hy : y % 5 = y' % 5) :
    A.lane x y = A.lane x' y' := by
  rw [← A.lane_mod_left x, hx, A.lane_mod_left, ← A.lane_mod_right x' y, hy, A.lane_mod_right]

theorem Lanes.lane_tabulate (f : Nat → Nat → Lane) {x y : Nat} (hx : x < 5) (hy : y < 5) :
    (Lanes.tabulate f).lane x y = f x y := by
  rcases lt_five hx with rfl | rfl | rfl | rfl | rfl <;>
    rcases lt_five hy with rfl | rfl | rfl | rfl | rfl <;> rfl

/-- Two states with the same 25 lanes are equal. -/
theorem Lanes.ext_lane {A B : Lanes} (h : ∀ x < 5, ∀ y < 5, A.lane x y = B.lane x y) : A = B := by
  obtain ⟨⟨a0, a1, a2, a3, a4⟩, ⟨b0, b1, b2, b3, b4⟩, ⟨c0, c1, c2, c3, c4⟩, ⟨d0, d1, d2, d3, d4⟩, ⟨e0, e1, e2, e3, e4⟩⟩ := A
  obtain ⟨⟨a0', a1', a2', a3', a4'⟩, ⟨b0', b1', b2', b3', b4'⟩, ⟨c0', c1', c2', c3', c4'⟩, ⟨d0', d1', d2', d3', d4'⟩,
    ⟨e0', e1', e2', e3', e4'⟩⟩ := B
  have all : ∀ x < 5, ∀ y < 5, _ := h
  have r0 := fun y hy => all 0 (by omega) y hy
  have r1 := fun y hy => all 1 (by omega) y hy
  have r2 := fun y hy => all 2 (by omega) y hy
  have r3 := fun y hy => all 3 (by omega) y hy
  have r4 := fun y hy => all 4 (by omega) y hy
  have col : ∀ {P : Nat → Prop}, (∀ y < 5, P y) → P 0 ∧ P 1 ∧ P 2 ∧ P 3 ∧ P 4 :=
    fun k => ⟨k 0 (by omega), k 1 (by omega), k 2 (by omega), k 3 (by omega), k 4 (by omega)⟩
  have c0 := col r0
  have c1 := col r1
  have c2 := col r2
  have c3 := col r3
  have c4 := col r4
  simp only [Lanes.lane, Lanes.row, Row.lane] at c0 c1 c2 c3 c4
  simp_all

theorem Row.lane_setLane (r : Row) (v : Lane) {x x' : Nat} (hx : x < 5) (hx' : x' < 5) :
    (r.setLane x v).lane x' = if x' = x then v else r.lane x' := by
  rcases lt_five hx with rfl | rfl | rfl | rfl | rfl <;>
    rcases lt_five hx' with rfl | rfl | rfl | rfl | rfl <;> rfl

theorem Lanes.row_setRow (A : Lanes) (r : Row) {y y' : Nat} (hy : y < 5) (hy' : y' < 5) :
    (A.setRow y r).row y' = if y' = y then r else A.row y' := by
  rcases lt_five hy with rfl | rfl | rfl | rfl | rfl <;>
    rcases lt_five hy' with rfl | rfl | rfl | rfl | rfl <;> rfl

/-- A write of one lane, seen through any lane. -/
theorem Lanes.lane_setLane (A : Lanes) (v : Lane) {x y x' y' : Nat} (hx : x < 5) (hy : y < 5) (hx' : x' < 5) (hy' : y' < 5) :
    (A.setLane x y v).lane x' y' = if x' = x ∧ y' = y then v else A.lane x' y' := by
  unfold Lanes.setLane Lanes.lane
  rw [Lanes.row_setRow A _ hy hy']
  by_cases h : y' = y
  · simp [h, Row.lane_setLane _ _ hx hx']
  · simp [h]

/-- The flat view of a write to a flat index (10_state.md R12). -/
theorem Lanes.flat_setFlat (A : Lanes) (v : Lane) {i j : Nat} (hi : i < 25) (hj : j < 25) :
    (A.setFlat i v).flat j = if j = i then v else A.flat j := by
  unfold Lanes.setFlat Lanes.flat
  rw [Lanes.lane_setLane A v (Nat.mod_lt _ (by omega)) (by omega) (Nat.mod_lt _ (by omega)) (by omega)]
  congr 1
  exact propext ⟨fun h => by omega, fun h => by subst h; exact ⟨rfl, rfl⟩⟩

/-- The eight low bits are the ones of the byte mask. -/
theorem getLsbD_byteMask (j : Nat) : (0xff#64).getLsbD j = decide (j < 8) := by
  by_cases h : j < 8
  · interval_cases j <;> rfl
  · have : (0xff#64).getLsbD j = false := by
      by_cases h64 : j < 64
      · interval_cases j <;> rfl
      · exact BitVec.getLsbD_of_ge _ _ (by omega)
    simp [this, h]

/-- Byte `k` of a lane after byte `k'` was replaced. -/
theorem laneByte_setLaneByte (v : Lane) (b : Byte) {k k' : Nat} (hk : k < 8) (hk' : k' < 8) :
    laneByte (setLaneByte v k' b) k = if k = k' then b else laneByte v k := by
  unfold laneByte setLaneByte
  ext i hi
  simp only [BitVec.getElem_extractLsb', BitVec.getLsbD_or, BitVec.getLsbD_and, BitVec.getLsbD_not,
    BitVec.getLsbD_shiftLeft, getLsbD_byteMask, BitVec.getLsbD_setWidth]
  have h64 : 8 * k + i < 64 := by omega
  by_cases h : k = k'
  · subst h
    simp [h64, hi, show i < 64 by omega]
  · rw [if_neg h]
    by_cases hlt : 8 * k + i < 8 * k'
    · simp [hlt, h64]
    · have : ¬ (8 * k + i - 8 * k' < 8) := by omega
      simp [h64, this, BitVec.getLsbD_of_ge b _ (by omega : 8 ≤ 8 * k + i - 8 * k')]

/-- The byte view of a write to one byte of the state (10_state.md R13, 00_scope.md R231). -/
theorem Lanes.byte_setByte (A : Lanes) (b : Byte) {k k' : Nat} (hk : k < 200) (hk' : k' < 200) :
    (A.setByte k' b).byte k = if k = k' then b else A.byte k := by
  unfold Lanes.setByte Lanes.byte
  rw [Lanes.flat_setFlat A _ (by omega) (by omega)]
  by_cases hl : k / 8 = k' / 8
  · rw [if_pos hl, laneByte_setLaneByte _ _ (Nat.mod_lt _ (by omega)) (Nat.mod_lt _ (by omega)), hl]
    congr 1
    exact propext ⟨fun h => by omega, fun h => by subst h; rfl⟩
  · rw [if_neg hl, if_neg (fun h => hl (by rw [h]))]

theorem Lanes.length_firstBytes (A : Lanes) (t : Nat) : (A.firstBytes t).length = t := by
  simp [Lanes.firstBytes]

theorem Lanes.getElem_firstBytes (A : Lanes) {t i : Nat} (h : i < (A.firstBytes t).length) :
    (A.firstBytes t)[i] = A.byte i := by
  simp [Lanes.firstBytes]

/-- Bit `(i + n) mod 64` of a rotated lane is bit `i` of the lane (40_keccak_p_permutation.md R70). -/
theorem getLsbD_rotl64 (v : Lane) {n i : Nat} (hn : n < 64) (hi : i < 64) :
    (rotl64 v n).getLsbD ((i + n) % 64) = v.getLsbD i := by
  unfold rotl64
  rw [BitVec.getLsbD_rotateLeft]
  have hm : n % 64 = n := Nat.mod_eq_of_lt hn
  rw [hm]
  by_cases h : i + n < 64
  · rw [Nat.mod_eq_of_lt h]
    simp [show ¬ i + n < n by omega, show i + n < 64 from h, show i + n - n = i by omega]
  · have e : (i + n) % 64 = i + n - 64 := by omega
    rw [e]
    simp [show i + n - 64 < n by omega, show 64 - n + (i + n - 64) = i by omega]

end Sys2Proof.Machine
end

