-- ==== Sys2Proof/Laws/Memory.lean ====
section
/-! SUPPORT. The laws of memory: read after write, the canonical form kept by every write, and what admission of a buffer
says byte by byte. -/

namespace Sys2Proof.Machine

theorem read_of_lt {m : Memory} {a : Nat} (h : ∀ c ∈ m, a < c.1) : Memory.read m a = Config.unlistedByte := by
  induction m with
  | nil => rfl
  | cons c m ih =>
    obtain ⟨b, v⟩ := c
    have hb : a < b := h (b, v) (by simp)
    simp only [Memory.read, if_neg (Nat.ne_of_lt hb)]
    exact ih fun c hc => h c (by simp [hc])

/-- A read after a write of one byte, in a memory of canonical form. -/
theorem read_write {m : Memory} (h : Memory.wf m) (a : Nat) (v : Byte) (x : Nat) :
    Memory.read (Memory.write m a v) x = if x = a then v else Memory.read m x := by
  induction m with
  | nil =>
    unfold Memory.write
    split
    · next hv => split <;> simp_all [Memory.read]
    · simp only [Memory.read]
  | cons c m ih =>
    obtain ⟨b, u⟩ := c
    have hm : Memory.wf m := ⟨(List.pairwise_cons.1 h.1).2, fun c hc => h.2 c (by simp [hc])⟩
    have hlt : ∀ c ∈ m, b < c.1 := fun c hc => (List.pairwise_cons.1 h.1).1 c hc
    have habove : ∀ y ≤ b, y ≠ b → Memory.read ((b, u) :: m) y = Config.unlistedByte := fun y hy hne =>
      read_of_lt fun c hc => by
        rcases List.mem_cons.1 hc with rfl | hc
        · exact lt_of_le_of_ne hy hne
        · exact lt_of_le_of_lt hy (hlt c hc)
    unfold Memory.write
    split
    · next hab =>
      split
      · next hv =>
        split
        · next hx => subst hx; rw [habove x (le_of_lt hab) (Nat.ne_of_lt hab), hv]
        · rfl
      · simp only [Memory.read]
    · split
      · next _ hab =>
        subst hab
        split
        · next hv =>
          by_cases hx : x = a
          · subst hx; rw [if_pos rfl, read_of_lt hlt, hv]
          · simp [Memory.read, hx]
        · simp only [Memory.read]
          split <;> rfl
      · next hab hne =>
        simp only [Memory.read, ih hm]
        by_cases hx : x = b
        · subst hx; simp [Ne.symm hne]
        · simp [hx]

theorem mem_write {m : Memory} {a : Nat} {v : Byte} {c : Host.Cell} (hc : c ∈ Memory.write m a v) :
    (c = (a, v) ∧ v ≠ Config.unlistedByte) ∨ c ∈ m := by
  induction m with
  | nil =>
    unfold Memory.write at hc
    split at hc
    · cases hc
    · next hv => exact .inl ⟨by simpa using hc, hv⟩
  | cons d m ih =>
    obtain ⟨b, u⟩ := d
    unfold Memory.write at hc
    split at hc
    · split at hc
      · exact .inr hc
      · next hv =>
        rcases List.mem_cons.1 hc with h | h
        · exact .inl ⟨h, hv⟩
        · exact .inr h
    · split at hc
      · split at hc
        · exact .inr (by simp [hc])
        · next hv =>
          rcases List.mem_cons.1 hc with h | h
          · exact .inl ⟨h, hv⟩
          · exact .inr (by simp [h])
      · rcases List.mem_cons.1 hc with h | h
        · exact .inr (by simp [h])
        · rcases ih h with h | h
          · exact .inl h
          · exact .inr (by simp [h])

/-- A write of one byte keeps the canonical form. -/
theorem write_wf {m : Memory} (h : Memory.wf m) (a : Nat) (v : Byte) : Memory.wf (Memory.write m a v) := by
  refine ⟨?_, fun c hc => ?_⟩
  · induction m with
    | nil =>
      unfold Memory.write
      split <;> simp
    | cons d m ih =>
      obtain ⟨b, u⟩ := d
      have hp := List.pairwise_cons.1 h.1
      have hm : Memory.wf m := ⟨hp.2, fun c hc => h.2 c (by simp [hc])⟩
      unfold Memory.write
      split
      · next hab =>
        split
        · exact h.1
        · refine List.pairwise_cons.2 ⟨fun c hc => ?_, h.1⟩
          rcases List.mem_cons.1 hc with rfl | hc
          · exact hab
          · exact Nat.lt_trans hab (hp.1 c hc)
      · split
        · next _ hab =>
          subst hab
          split
          · exact hp.2
          · exact List.pairwise_cons.2 ⟨hp.1, hp.2⟩
        · next hab hne =>
          refine List.pairwise_cons.2 ⟨fun c hc => ?_, ih hm⟩
          rcases mem_write hc with ⟨rfl, _⟩ | hc
          · show b < a
            omega
          · exact hp.1 c hc
  · rcases mem_write hc with ⟨rfl, hv⟩ | hc
    · exact hv
    · exact h.2 c hc

/-- A write inside the address space keeps every listed address inside it. -/
theorem write_within {m : Memory} {bound : Nat} (h : Memory.within m bound) {a : Nat} (ha : a < bound) (v : Byte) :
    Memory.within (Memory.write m a v) bound := by
  intro c hc
  rcases mem_write hc with ⟨rfl, _⟩ | hc
  · exact ha
  · exact h c hc

/-- A store of a byte sequence keeps the canonical form. -/
theorem writeBytes_wf {m : Memory} (h : Memory.wf m) (p : Nat) (Z : List Byte) : Memory.wf (Memory.writeBytes m p Z) := by
  induction Z generalizing m p with
  | nil => exact h
  | cons b bs ih => exact ih (write_wf h p b) (p + 1)

/-- A store that ends inside the address space keeps every listed address inside it. -/
theorem writeBytes_within {m : Memory} {bound : Nat} (h : Memory.within m bound) (p : Nat) (Z : List Byte)
    (hp : Z = [] ∨ p + Z.length ≤ bound) : Memory.within (Memory.writeBytes m p Z) bound := by
  induction Z generalizing m p with
  | nil => exact h
  | cons b bs ih =>
    have hb : p + (bs.length + 1) ≤ bound := by simpa using hp
    exact ih (write_within h (by omega) b) (p + 1) (.inr (by omega))

/-- A read after a store of a byte sequence: inside the stored bytes the byte stored there, elsewhere what was there. -/
theorem read_writeBytes {m : Memory} (h : Memory.wf m) (p : Nat) (Z : List Byte) (x : Nat) :
    Memory.read (Memory.writeBytes m p Z) x =
      if p ≤ x ∧ x < p + Z.length then Z.getD (x - p) Config.unlistedByte else Memory.read m x := by
  induction Z generalizing m p with
  | nil => simp [Memory.writeBytes, show ¬ (p ≤ x ∧ x < p) by omega]
  | cons b bs ih =>
    rw [Memory.writeBytes, ih (write_wf h p b), read_write h]
    by_cases hx : x = p
    · subst hx
      simp
    · by_cases hin : p + 1 ≤ x ∧ x < p + 1 + bs.length
      · rw [if_pos hin, if_pos (by simp only [List.length_cons]; omega)]
        obtain ⟨k, rfl⟩ : ∃ k, x = p + 1 + k := ⟨x - (p + 1), by omega⟩
        simp [show p + 1 + k - p = k + 1 by omega]
      · rw [if_neg hin, if_neg hx, if_neg (by simp only [List.length_cons]; omega)]

theorem length_readBytes (m : Memory) (p n : Nat) : (Memory.readBytes m p n).length = n := by
  simp [Memory.readBytes]

theorem admits_cons (r : Region) (rs : List Region) (a : Nat) :
    admits (r :: rs) a = true ↔ (r.base ≤ a ∧ a < r.base + r.size) ∨ admits rs a = true := by
  simp [admits]

/-- Interval coverage is admission of every byte of the interval (20_memory.md R36). -/
theorem covers_iff (rs : List Region) (lo hi : Nat) :
    covers rs lo hi = true ↔ ∀ a, lo ≤ a → a < hi → admits rs a = true := by
  induction rs generalizing lo hi with
  | nil =>
    simp only [covers, decide_eq_true_eq]
    constructor
    · intro h a h1 h2
      omega
    · intro h
      by_contra hlt
      simpa [admits] using h lo (le_refl _) (by omega)
  | cons r rs ih =>
    simp only [covers, Bool.or_eq_true, Bool.and_eq_true, decide_eq_true_eq, ih, admits_cons]
    constructor
    · rintro (h | ⟨h1, h2⟩) a ha ha'
      · omega
      · by_cases hlow : a < r.base
        · exact .inr (h1 a ha (by omega))
        · by_cases hup : a < r.base + r.size
          · exact .inl ⟨by omega, hup⟩
          · exact .inr (h2 a (by omega) ha')
    · intro h
      refine .inr ⟨fun a ha ha' => ?_, fun a ha ha' => ?_⟩
      · rcases h a ha (by omega) with h | h
        · omega
        · exact h
      · rcases h a (by omega) ha' with h | h
        · omega
        · exact h

/-- The admission rule, byte by byte (20_memory.md R36). -/
theorem admitted_iff (w : Widths) (rs : List Region) (p n : Nat) :
    admitted w rs p n = true ↔
      n = 0 ∨ (p + n ≤ 2 ^ w.aw ∧ ∀ a, p ≤ a → a < p + n → admits rs a = true) := by
  simp [admitted, covers_iff]

end Sys2Proof.Machine
end

