-- ==== Sys2Proof/Laws/Commands.lean ====
section
/-! SUPPORT. What each shared operation of the commands can answer, said once: the checks, the six ABSORB commands, SQUEEZE,
the six one-shots, and one step. Later proofs cite these instead of unfolding a command. -/

namespace Sys2Proof.Machine

theorem requirePhase_pos {p : Phase} {s : State} (h : s.phase = p) (k : Result) : requirePhase p s k = k := if_pos h

theorem requirePhase_neg {p : Phase} {s : State} (h : s.phase ≠ p) (k : Result) :
    requirePhase p s k = .refused .wrongPhase := if_neg h

theorem requireRead_pos {p n : Nat} {s : State} (h : s.admittedRead p n = true) (k : Result) :
    requireRead p n s k = k := if_pos h

theorem requireRead_neg {p n : Nat} {s : State} (h : ¬ s.admittedRead p n = true) (k : Result) :
    requireRead p n s k = .refused (.bufferNotAdmitted .message) := if_neg h

theorem requireWrite_pos {p n : Nat} {s : State} (h : s.admittedWrite p n = true) (k : Result) :
    requireWrite p n s k = k := if_pos h

theorem requireWrite_neg {p n : Nat} {s : State} (h : ¬ s.admittedWrite p n = true) (k : Result) :
    requireWrite p n s k = .refused (.bufferNotAdmitted .output) := if_neg h

/-- Everything an `ABSORB.<alg>` command can answer. -/
theorem absorbCommand_cases (a : Alg) (p n : Nat) (s : State) :
    (s.phase = .empty ∧ s.admittedRead p n = true ∧
      absorbCommand a p n s = .next (absorbInto a (Memory.readBytes s.mem p n) s)) ∨
    (s.phase ≠ .empty ∧ absorbCommand a p n s = .refused .wrongPhase) ∨
    (s.phase = .empty ∧ ¬ s.admittedRead p n = true ∧
      absorbCommand a p n s = .refused (.bufferNotAdmitted .message)) := by
  unfold absorbCommand
  by_cases hp : s.phase = .empty
  · rw [requirePhase_pos hp]
    by_cases hr : s.admittedRead p n = true
    · exact .inl ⟨hp, hr, requireRead_pos hr _⟩
    · exact .inr (.inr ⟨hp, hr, requireRead_neg hr _⟩)
  · exact .inr (.inl ⟨hp, requirePhase_neg hp _⟩)

/-- Everything `SQUEEZE` can answer. -/
theorem execSqueeze_cases (q m : Nat) (s : State) :
    (∃ a, s.phase = .squeezing ∧ s.alg = some a ∧ s.admittedWrite q (outputLength a m) = true ∧
      execSqueeze q m s = .next (squeezeOut a q (outputLength a m) s)) ∨
    (s.phase ≠ .squeezing ∧ execSqueeze q m s = .refused .wrongPhase) ∨
    (s.phase = .squeezing ∧ s.alg = none ∧ execSqueeze q m s = .refused .algAbsent) ∨
    (∃ a, s.phase = .squeezing ∧ s.alg = some a ∧ ¬ s.admittedWrite q (outputLength a m) = true ∧
      execSqueeze q m s = .refused (.bufferNotAdmitted .output)) := by
  unfold execSqueeze
  by_cases hp : s.phase = .squeezing
  · rw [requirePhase_pos hp]
    cases ha : s.alg with
    | none => exact .inr (.inr (.inl ⟨hp, rfl, rfl⟩))
    | some a =>
      by_cases hw : s.admittedWrite q (outputLength a m) = true
      · exact .inl ⟨a, hp, rfl, hw, requireWrite_pos hw _⟩
      · exact .inr (.inr (.inr ⟨a, hp, rfl, hw, requireWrite_neg hw _⟩))
  · exact .inr (.inl ⟨hp, requirePhase_neg hp _⟩)

/-- Everything a one-shot command can answer. -/
theorem oneshotCommand_cases (a : Alg) (p n q m : Nat) (s : State) :
    (s.admittedRead p n = true ∧ s.admittedWrite q (outputLength a m) = true ∧
      oneshotCommand a p n q m s =
        .next (squeezeOut a q (outputLength a m) (absorbInto a (Memory.readBytes s.mem p n) s.fresh))) ∨
    (¬ s.admittedRead p n = true ∧ oneshotCommand a p n q m s = .refused (.bufferNotAdmitted .message)) ∨
    (s.admittedRead p n = true ∧ ¬ s.admittedWrite q (outputLength a m) = true ∧
      oneshotCommand a p n q m s = .refused (.bufferNotAdmitted .output)) := by
  unfold oneshotCommand
  by_cases hr : s.admittedRead p n = true
  · rw [requireRead_pos hr]
    by_cases hw : s.admittedWrite q (outputLength a m) = true
    · exact .inl ⟨hr, hw, requireWrite_pos hw _⟩
    · exact .inr (.inr ⟨hr, hw, requireWrite_neg hw _⟩)
  · exact .inr (.inl ⟨hr, requireRead_neg hr _⟩)

/-- Everything `exec` can do when it answers a next state: one of five shapes over all fifteen commands. The operands are
those of the command's transaction; `OUT_LEN` is 0 there for a format that has none. -/
theorem exec_next_cases {i : Instr} {s t : State} (h : exec i s = .next t) :
    (i.opcode = .init ∧ t = s.fresh) ∨
    (i.opcode = .keccakP ∧
      t = if s.phase = .empty then (s.withS (keccakP s.S)).withPhase .done else s.withS (keccakP s.S)) ∨
    (∃ a, i.opcode = .absorb a ∧ s.phase = .empty ∧
      s.admittedRead (encode i).msgPtr (encode i).msgLen = true ∧
      t = absorbInto a (Memory.readBytes s.mem (encode i).msgPtr (encode i).msgLen) s) ∨
    (∃ a, i.opcode = .squeeze ∧ s.phase = .squeezing ∧ s.alg = some a ∧
      s.admittedWrite (encode i).outPtr (outputLength a (encode i).outLen) = true ∧
      t = squeezeOut a (encode i).outPtr (outputLength a (encode i).outLen) s) ∨
    (∃ a, i.opcode = .oneshot a ∧
      s.admittedRead (encode i).msgPtr (encode i).msgLen = true ∧
      s.admittedWrite (encode i).outPtr (outputLength a (encode i).outLen) = true ∧
      t = squeezeOut a (encode i).outPtr (outputLength a (encode i).outLen)
        (absorbInto a (Memory.readBytes s.mem (encode i).msgPtr (encode i).msgLen) s.fresh)) := by
  cases ho : i.opcode with
  | init =>
    rw [exec_of_init ho] at h
    cases h
    exact .inl ⟨rfl, rfl⟩
  | keccakP =>
    rw [exec_of_keccakP ho] at h
    cases h
    exact .inr (.inl ⟨rfl, rfl⟩)
  | absorb a =>
    rw [exec_of_absorb ho] at h
    rcases absorbCommand_cases a _ _ s with ⟨hp, hr, he⟩ | ⟨_, he⟩ | ⟨_, _, he⟩ <;> rw [he] at h <;> cases h
    exact .inr (.inr (.inl ⟨a, rfl, hp, hr, rfl⟩))
  | squeeze =>
    rw [exec_of_squeeze ho] at h
    rcases execSqueeze_cases _ _ s with ⟨a, hp, ha, hw, he⟩ | ⟨_, he⟩ | ⟨_, _, he⟩ | ⟨_, _, _, _, he⟩ <;>
      rw [he] at h <;> cases h
    exact .inr (.inr (.inr (.inl ⟨a, rfl, hp, ha, hw, rfl⟩)))
  | oneshot a =>
    rw [exec_of_oneshot ho] at h
    rcases oneshotCommand_cases a _ _ _ _ s with ⟨hr, hw, he⟩ | ⟨_, he⟩ | ⟨_, _, he⟩ <;> rw [he] at h <;> cases h
    exact .inr (.inr (.inr (.inr ⟨a, rfl, hr, hw, rfl⟩)))

/-- What the decoder reads is well formed. -/
theorem decode_wellFormed {w : Widths} {t : Transaction} {i : Instr} (h : decode w t = .ok i) : i.wellFormed w = true := by
  unfold decode at h
  split at h
  · cases h
  · split at h
    · cases h; assumption
    · cases h

/-- Everything a host store can answer. -/
theorem hostStore_cases (a : Nat) (v : Byte) (s : State) :
    (a < 2 ^ s.widths.aw ∧ hostStore a v s = .next (s.withMem (Memory.write s.mem a v))) ∨
    (¬ a < 2 ^ s.widths.aw ∧ hostStore a v s = .refused .hostStoreOutsideMemory) := by
  by_cases ha : a < 2 ^ s.widths.aw
  · exact .inl ⟨ha, if_pos ha⟩
  · exact .inr ⟨ha, if_neg ha⟩

/-- Everything a step can do when it answers a next state. -/
theorem step_next_cases {s t : State} (h : step s = .next t) :
    (s.host = [] ∧ t = s) ∨
    (∃ tr rest i, s.host = .issue tr :: rest ∧ decode s.widths tr = .ok i ∧ exec i (s.withHost rest) = .next t) ∨
    (∃ a v rest, s.host = .store a v :: rest ∧ a < 2 ^ s.widths.aw ∧
      t = (s.withHost rest).withMem (Memory.write s.mem a v)) ∨
    (∃ rest, s.host = .reset :: rest ∧ t = (s.withHost rest).blockReset) := by
  unfold step nextAction at h
  split at h
  · next hh => cases h; exact .inl ⟨hh, rfl⟩
  · next e rest hh =>
    cases e with
    | issue tr =>
      simp only [handle, issue, withHost_widths] at h
      split at h
      · cases h
      · cases h
      · next i hd => exact .inr (.inl ⟨tr, rest, i, hh, hd, h⟩)
    | store a v =>
      have hc : hostStore a v (s.withHost rest) = .next t := h
      rcases hostStore_cases a v (s.withHost rest) with ⟨ha, he⟩ | ⟨_, he⟩ <;> rw [he] at hc <;> cases hc
      exact .inr (.inr (.inl ⟨a, v, rest, hh, ha, rfl⟩))
    | reset =>
      simp only [handle] at h
      cases h
      exact .inr (.inr (.inr ⟨rest, hh, rfl⟩))

end Sys2Proof.Machine
end

