-- ==== Sys2Proof/Laws/Sponge.lean ====
section
/-! SUPPORT. One lemma per function of the permutation and the sponge, which later proofs cite instead of unfolding it. -/

namespace Sys2Proof.Machine

theorem lane_theta (A : Lanes) {x y : Nat} (hx : x < 5) (hy : y < 5) :
    (theta A).lane x y = A.lane x y ^^^ thetaEffect A x := Lanes.lane_tabulate _ hx hy

theorem lane_rho (A : Lanes) {x y : Nat} (hx : x < 5) (hy : y < 5) :
    (rho A).lane x y = rotl64 (A.lane x y) (RHO x y) := Lanes.lane_tabulate _ hx hy

theorem lane_pi (A : Lanes) {x y : Nat} (hx : x < 5) (hy : y < 5) :
    (pi A).lane x y = A.lane (x + 3 * y) x := Lanes.lane_tabulate _ hx hy

theorem lane_chi (A : Lanes) {x y : Nat} (hx : x < 5) (hy : y < 5) :
    (chi A).lane x y = A.lane x y ^^^ (~~~A.lane (x + 1) y &&& A.lane (x + 2) y) := Lanes.lane_tabulate _ hx hy

theorem lane_iota (A : Lanes) (ir : Nat) {x y : Nat} (hx : x < 5) (hy : y < 5) :
    (iota A ir).lane x y = if x = 0 ∧ y = 0 then A.lane 0 0 ^^^ RC ir else A.lane x y :=
  Lanes.lane_setLane A _ (by omega) (by omega) hx hy

/-- Every rotation offset is in 0..63. -/
theorem RHO_lt (x y : Nat) : RHO x y < 64 := by
  have all : ∀ x < 5, ∀ y < 5, RHO x y < 64 := by decide
  have key : RHO x y = RHO (x % 5) (y % 5) := by simp [RHO]
  rw [key]
  exact all _ (Nat.mod_lt _ (by omega)) _ (Nat.mod_lt _ (by omega))

/-- Every rate is a positive whole number of lanes within the state. -/
theorem rate_bounds (a : Alg) : 0 < (PS a).rate ∧ (PS a).rate < 200 ∧ 8 ∣ (PS a).rate := by
  cases a <;> decide

/-- One step of the `XOR_BLOCK` loop, seen through a byte: the block's bytes are XORed in, every other byte is kept. -/
theorem byte_xorBlockFrom (A : Lanes) (j : Nat) (block : List Byte) (hb : j + block.length ≤ 200) {k : Nat} (hk : k < 200) :
    (xorBlockFrom A j block).byte k =
      if j ≤ k ∧ k < j + block.length then A.byte k ^^^ block.getD (k - j) 0#8 else A.byte k := by
  induction block generalizing A j with
  | nil => simp [xorBlockFrom, show ¬ (j ≤ k ∧ k < j) by omega]
  | cons b bs ih =>
    have hb' : j + (bs.length + 1) ≤ 200 := by simpa using hb
    rw [xorBlockFrom, ih _ _ (by omega), Lanes.byte_setByte A _ hk (by omega)]
    by_cases hkj : k = j
    · subst hkj
      simp
    · by_cases hin : j + 1 ≤ k ∧ k < j + 1 + bs.length
      · rw [if_pos hin, if_neg hkj, if_pos (by simp only [List.length_cons]; omega)]
        obtain ⟨d, rfl⟩ : ∃ d, k = j + 1 + d := ⟨k - (j + 1), by omega⟩
        simp [show j + 1 + d - j = d + 1 by omega]
      · rw [if_neg hin, if_neg hkj, if_neg (by simp only [List.length_cons]; omega)]

theorem length_padBytes (Lm r : Nat) (sfx : Byte) : (padBytes Lm r sfx).length = r - Lm % r := by
  simp [padBytes]

/-- One turn of the squeeze loop. -/
theorem squeezeLoop_of_le (r fuel : Nat) (A : Lanes) {m : Nat} (h : m ≤ r) :
    squeezeLoop r fuel A m = (A.firstBytes m, A) := by
  cases fuel <;> simp [squeezeLoop, h]

theorem squeezeLoop_succ_of_gt (r fuel : Nat) (A : Lanes) {m : Nat} (h : r < m) :
    squeezeLoop r (fuel + 1) A m =
      (A.firstBytes r ++ (squeezeLoop r fuel (keccakP A) (m - r)).1, (squeezeLoop r fuel (keccakP A) (m - r)).2) := by
  simp [squeezeLoop, show ¬ m ≤ r by omega, Nat.min_eq_right (le_of_lt h)]

/-- `SQUEEZE_FN` of at most one rate part: no permutation, the first bytes of the state. -/
theorem squeezeFn_of_le (A : Lanes) {r n : Nat} (h : n ≤ r) : squeezeFn A r n = (A.firstBytes n, A) := by
  unfold squeezeFn
  exact squeezeLoop_of_le r n A h

end Sys2Proof.Machine
end

