-- ==== Sys2Proof/Laws/PerInstr.lean ====
section
/-! SUPPORT. Facts about each command as syntax, one lemma per constructor: what its transaction carries. -/

namespace Sys2Proof.Laws.Transaction

/-- The family: the transaction of a command carries the word of its operation, and is well formed exactly when the command
is (a format's unused fields are 0 and always fit). -/
def Statement (i : Instr) : Prop :=
  (encode i).cw = i.opcode.word ∧ ∀ w : Widths, (encode i).wellFormed w = i.wellFormed w

theorem ptrFits_zero (w : Widths) : w.ptrFits 0 = true := by simp [Widths.ptrFits]

theorem lenFits_zero (w : Widths) : w.lenFits 0 = true := by simp [Widths.lenFits]

theorem init : Statement .init := ⟨rfl, fun w => by simp [encode, Transaction.wellFormed, Instr.wellFormed, ptrFits_zero, lenFits_zero]⟩
theorem keccakP : Statement .keccakP := ⟨rfl, fun w => by simp [encode, Transaction.wellFormed, Instr.wellFormed, ptrFits_zero, lenFits_zero]⟩
theorem absorbSha3_224 (p n : Nat) : Statement (.absorbSha3_224 p n) := ⟨rfl, fun w => by simp [encode, Transaction.wellFormed, Instr.wellFormed, ptrFits_zero, lenFits_zero]⟩
theorem absorbSha3_256 (p n : Nat) : Statement (.absorbSha3_256 p n) := ⟨rfl, fun w => by simp [encode, Transaction.wellFormed, Instr.wellFormed, ptrFits_zero, lenFits_zero]⟩
theorem absorbSha3_384 (p n : Nat) : Statement (.absorbSha3_384 p n) := ⟨rfl, fun w => by simp [encode, Transaction.wellFormed, Instr.wellFormed, ptrFits_zero, lenFits_zero]⟩
theorem absorbSha3_512 (p n : Nat) : Statement (.absorbSha3_512 p n) := ⟨rfl, fun w => by simp [encode, Transaction.wellFormed, Instr.wellFormed, ptrFits_zero, lenFits_zero]⟩
theorem absorbShake128 (p n : Nat) : Statement (.absorbShake128 p n) := ⟨rfl, fun w => by simp [encode, Transaction.wellFormed, Instr.wellFormed, ptrFits_zero, lenFits_zero]⟩
theorem absorbShake256 (p n : Nat) : Statement (.absorbShake256 p n) := ⟨rfl, fun w => by simp [encode, Transaction.wellFormed, Instr.wellFormed, ptrFits_zero, lenFits_zero]⟩
theorem squeeze (q m : Nat) : Statement (.squeeze q m) := ⟨rfl, fun w => by simp [encode, Transaction.wellFormed, Instr.wellFormed, ptrFits_zero, lenFits_zero]⟩
theorem sha3_224 (p n q : Nat) : Statement (.sha3_224 p n q) := ⟨rfl, fun w => by simp [encode, Transaction.wellFormed, Instr.wellFormed, lenFits_zero]⟩
theorem sha3_256 (p n q : Nat) : Statement (.sha3_256 p n q) := ⟨rfl, fun w => by simp [encode, Transaction.wellFormed, Instr.wellFormed, lenFits_zero]⟩
theorem sha3_384 (p n q : Nat) : Statement (.sha3_384 p n q) := ⟨rfl, fun w => by simp [encode, Transaction.wellFormed, Instr.wellFormed, lenFits_zero]⟩
theorem sha3_512 (p n q : Nat) : Statement (.sha3_512 p n q) := ⟨rfl, fun w => by simp [encode, Transaction.wellFormed, Instr.wellFormed, lenFits_zero]⟩
theorem shake128 (p n q m : Nat) : Statement (.shake128 p n q m) := ⟨rfl, fun _ => rfl⟩
theorem shake256 (p n q m : Nat) : Statement (.shake256 p n q m) := ⟨rfl, fun _ => rfl⟩

end Sys2Proof.Laws.Transaction
end

