-- ==== Sys2Proof/Tests/Slice0.lean ====
section
/-! SUPPORT. The model's own tests. Expected values are the spec's: words from 30_encoding.md R55, vectors from
95_test_vectors.md (V-.. and P.. below). The witnesses at the end meet the hypotheses of the statements. -/

namespace Sys2Proof.Tests

-- One theorem after the other: evaluated side by side, the kernel's runs take a thread and its stack each.
set_option Elab.async false

open Sys2Proof Sys2Proof.Machine Sys2Proof.Spec

/-! ### Helpers -/

/-- The state after reset with the given phase, parameter set and memory. -/
def at' (p : Phase) (a : Option Alg) (m : Memory) : State := { State.reset with phase := p, alg := a, mem := m }

/-- The state after reset, admitting only the given regions. -/
def only (rd wr : List Region) : State := { State.reset with readable := rd, writable := wr }

/-- What holds of the next state, false if there is none. -/
def andThen (r : Result) (f : State → Bool) : Bool :=
  match r with
  | .next t => f t
  | .fault _ => false
  | .refused _ => false

/-- The reason of a refusal. -/
def why (r : Result) : Option Refusal :=
  match r with
  | .next _ => none
  | .fault _ => none
  | .refused e => some e

/-- A byte string as the spec prints it in hexadecimal: first byte first. -/
def hex (bs : List Byte) : Nat := bs.foldl (fun n b => 256 * n + b.toNat) 0

/-- `n` bytes of memory at `p`, printed. -/
def dump (s : State) (p n : Nat) : Nat := hex (Memory.readBytes s.mem p n)

/-- `61 62 63` at 0x1000. -/
def abc : Memory := [(0x1000, 0x61#8), (0x1001, 0x62#8), (0x1002, 0x63#8)]

/-- Byte `i` holds `i`, for `i` in 0..n-1, at 0x4000. -/
def counting (n : Nat) : Memory := (List.range (n - 1)).map fun i => (0x4001 + i, BitVec.ofNat 8 (i + 1))

/-- A state with one lane. -/
def oneLane (x y : Nat) (v : Lane) : Lanes := Lanes.zero.setLane x y v

/-! ### Well-formedness: an ill-formed term for each check -/

theorem test_wf_ptr_message : Instr.wellFormed ⟨64, 64⟩ (.absorbSha3_224 (2 ^ 64) 0) = false := by decide
theorem test_wf_len_message : Instr.wellFormed ⟨64, 64⟩ (.absorbShake256 0 (2 ^ 64)) = false := by decide
theorem test_wf_ptr_output : Instr.wellFormed ⟨64, 64⟩ (.squeeze (2 ^ 64) 0) = false := by decide
theorem test_wf_len_output : Instr.wellFormed ⟨64, 64⟩ (.squeeze 0 (2 ^ 64)) = false := by decide
theorem test_wf_oneshot_output : Instr.wellFormed ⟨64, 64⟩ (.sha3_512 0 0 (2 ^ 64)) = false := by decide
theorem test_wf_oneshot_message : Instr.wellFormed ⟨64, 64⟩ (.sha3_384 (2 ^ 64) 0 0) = false := by decide
theorem test_wf_oneshot_length : Instr.wellFormed ⟨64, 64⟩ (.sha3_256 0 (2 ^ 64) 0) = false := by decide
theorem test_wf_xof_output_length : Instr.wellFormed ⟨64, 64⟩ (.shake128 0 0 0 (2 ^ 64)) = false := by decide
theorem test_wf_narrow_address : Instr.wellFormed ⟨16, 64⟩ (.shake256 0x10000 0 0 0) = false := by decide
theorem test_wf_boundary : Instr.wellFormed ⟨16, 8⟩ (.shake256 0xffff 0xff 0xffff 0xff) = true := by decide
theorem test_wf_transaction : Transaction.wellFormed ⟨16, 8⟩ ⟨0x45#8, 0, 0x100, 0, 0⟩ = false := by decide

/-! ### Decoding: every word of the map, bit by bit (R55), and reserved words (V-EN1) -/

theorem test_decode_init : decode ⟨64, 64⟩ ⟨0b00000000#8, 1, 2, 3, 4⟩ = .ok .init := by decide
theorem test_decode_keccak_p : decode ⟨64, 64⟩ ⟨0b00010000#8, 1, 2, 3, 4⟩ = .ok .keccakP := by decide
theorem test_decode_absorb_sha3_224 : decode ⟨64, 64⟩ ⟨0b00100000#8, 1, 2, 3, 4⟩ = .ok (.absorbSha3_224 1 2) := by decide
theorem test_decode_absorb_sha3_256 : decode ⟨64, 64⟩ ⟨0b00100001#8, 1, 2, 3, 4⟩ = .ok (.absorbSha3_256 1 2) := by decide
theorem test_decode_absorb_sha3_384 : decode ⟨64, 64⟩ ⟨0b00100010#8, 1, 2, 3, 4⟩ = .ok (.absorbSha3_384 1 2) := by decide
theorem test_decode_absorb_sha3_512 : decode ⟨64, 64⟩ ⟨0b00100011#8, 1, 2, 3, 4⟩ = .ok (.absorbSha3_512 1 2) := by decide
theorem test_decode_absorb_shake128 : decode ⟨64, 64⟩ ⟨0b00100100#8, 1, 2, 3, 4⟩ = .ok (.absorbShake128 1 2) := by decide
theorem test_decode_absorb_shake256 : decode ⟨64, 64⟩ ⟨0b00100101#8, 1, 2, 3, 4⟩ = .ok (.absorbShake256 1 2) := by decide
theorem test_decode_squeeze : decode ⟨64, 64⟩ ⟨0b00110000#8, 1, 2, 3, 4⟩ = .ok (.squeeze 3 4) := by decide
theorem test_decode_sha3_224 : decode ⟨64, 64⟩ ⟨0b01000000#8, 1, 2, 3, 4⟩ = .ok (.sha3_224 1 2 3) := by decide
theorem test_decode_sha3_256 : decode ⟨64, 64⟩ ⟨0b01000001#8, 1, 2, 3, 4⟩ = .ok (.sha3_256 1 2 3) := by decide
theorem test_decode_sha3_384 : decode ⟨64, 64⟩ ⟨0b01000010#8, 1, 2, 3, 4⟩ = .ok (.sha3_384 1 2 3) := by decide
theorem test_decode_sha3_512 : decode ⟨64, 64⟩ ⟨0b01000011#8, 1, 2, 3, 4⟩ = .ok (.sha3_512 1 2 3) := by decide
theorem test_decode_shake128 : decode ⟨64, 64⟩ ⟨0b01000100#8, 1, 2, 3, 4⟩ = .ok (.shake128 1 2 3 4) := by decide
theorem test_decode_shake256 : decode ⟨64, 64⟩ ⟨0b01000101#8, 1, 2, 3, 4⟩ = .ok (.shake256 1 2 3 4) := by decide

theorem test_decode_reserved : ∀ n ∈ [0x01, 0x1f, 0x26, 0x34, 0x46, 0x50, 0xff],
    decode ⟨64, 64⟩ (tableTransaction n) = .error .reservedCommand := by decide

/-- An unused field may hold any value, a used one only a value of its width. -/
theorem test_decode_field_too_wide :
    decode ⟨16, 8⟩ ⟨0x20#8, 0x10000, 0, 0, 0⟩ = .error .fieldTooWide ∧
    decode ⟨16, 8⟩ ⟨0x30#8, 0x10000, 0x100, 0xffff, 0xff⟩ = .ok (.squeeze 0xffff 0xff) := by decide

theorem test_table_word : decodeTableWord 8 0x45 = some (.shake256 0 0 0 0) ∧ decodeTableWord 8 0x50 = none ∧
    decodeTableWord 16 0x45 = none := by decide

/-! ### The steps of the permutation -/

/-- V-RT. -/
theorem test_rotl : rotl64 0x8000000000000001#64 0 = 0x8000000000000001#64 ∧
    rotl64 0x8000000000000001#64 1 = 3#64 ∧ rotl64 0x8000000000000001#64 63 = 0xC000000000000000#64 ∧
    rotl64 1#64 62 = 0x4000000000000000#64 := by decide

/-- V-TH3. -/
theorem test_theta_interior : theta (oneLane 2 3 0x8000000000000001#64) =
    ⟨⟨0, 3, 0, 0x8000000000000001, 0⟩, ⟨0, 3, 0, 0x8000000000000001, 0⟩, ⟨0, 3, 0, 0x8000000000000001, 0⟩,
     ⟨0, 3, 0x8000000000000001, 0x8000000000000001, 0⟩, ⟨0, 3, 0, 0x8000000000000001, 0⟩⟩ := by decide +kernel

/-- V-TH4: parity cancellation. -/
theorem test_theta_cancellation : theta (Lanes.tabulate fun _ _ => 1) = Lanes.tabulate fun _ _ => 2 := by decide +kernel

/-- V-RH1, two rows. -/
theorem test_rho : (rho (Lanes.tabulate fun _ _ => 0x8000000000000001#64)).y0 =
      ⟨0x8000000000000001, 0x0000000000000003, 0x6000000000000000, 0x0000000018000000, 0x000000000C000000⟩ ∧
    (rho (Lanes.tabulate fun _ _ => 0x8000000000000001#64)).y4 =
      ⟨0x0000000000060000, 0x0000000000000006, 0x3000000000000000, 0x0180000000000000, 0x0000000000006000⟩ := by
  decide +kernel

/-- V-PI1. -/
theorem test_pi : pi (Lanes.tabulate fun x y => BitVec.ofNat 64 (0x10 * x + y)) =
    ⟨⟨0x00, 0x11, 0x22, 0x33, 0x44⟩, ⟨0x30, 0x41, 0x02, 0x13, 0x24⟩, ⟨0x10, 0x21, 0x32, 0x43, 0x04⟩,
     ⟨0x40, 0x01, 0x12, 0x23, 0x34⟩, ⟨0x20, 0x31, 0x42, 0x03, 0x14⟩⟩ := by decide +kernel

/-- V-CH1. -/
theorem test_chi : chi ⟨⟨0x00000000FFFFFFFF, 0x0F0F0F0F0F0F0F0F, 0x3333333333333333, 0x5555555555555555,
      0xFFFFFFFFFFFFFFFF⟩, Row.zero, Row.zero, Row.zero, Row.zero⟩ =
    ⟨⟨0x30303030CFCFCFCF, 0x4B4B4B4B4B4B4B4B, 0x9999999999999999, 0x5555555555555555, 0xF0F0F0F0FFFFFFFF⟩,
      Row.zero, Row.zero, Row.zero, Row.zero⟩ := by decide +kernel

/-- V-IO2. -/
theorem test_iota : iota (oneLane 0 0 0xFFFFFFFFFFFFFFFF#64) 23 = oneLane 0 0 0x7FFFFFFF7FFF7FF7#64 := by decide +kernel

/-- V-RD3, the first row after three rounds. -/
theorem test_three_rounds : (rounds 3 Lanes.zero).y0 =
    ⟨0x8030500001E0840C, 0x38CA983082300106, 0x08B0340041C14101, 0x2002783081A00483, 0x10488C0040D14100⟩ := by
  decide +kernel

/-! ### Padding (V-PD) -/

theorem test_pad_bytes : padBytes 143 144 0x06#8 = [0x86#8] ∧ padBytes 166 168 0x1f#8 = [0x1f#8, 0x80#8] ∧
    padBytes 335 168 0x1f#8 = [0x9f#8] ∧
    padBytes 72 72 0x06#8 = 0x06#8 :: (List.replicate 70 0#8 ++ [0x80#8]) := by decide +kernel

/-! ### Bytes and memory -/

theorem test_le64 : le64 0x61 0x62 0x63 0x06 0 0 0 0 = 0x0000000006636261#64 := by decide

theorem test_set_byte : (Lanes.zero.setByte 135 0x80#8).flat 16 = 0x8000000000000000#64 := by decide +kernel

theorem test_memory_canonical : Memory.write (Memory.write [] 5 7#8) 5 0#8 = [] ∧
    Memory.write [(5, 7#8)] 3 1#8 = [(3, 1#8), (5, 7#8)] := by decide

/-- A buffer across two adjoining regions is admitted, one across a hole is not. -/
theorem test_covers : covers [⟨10, 5⟩, ⟨0, 10⟩] 3 15 = true ∧ covers [⟨0, 9⟩, ⟨10, 5⟩] 3 15 = false := by decide

/-! ### The commands -/

/-- R172: S and PHASE are cleared, ALG stays. -/
theorem test_init : andThen (exec .init { at' .done (some .shake256) abc with S := oneLane 1 2 5 }) fun t =>
    t == at' .empty (some .shake256) abc := by decide +kernel

/-- P4, V-KP1: the row y = 4 of the permuted zero state; `EMPTY` goes to `DONE`. -/
theorem test_keccak_p : andThen (exec .keccakP State.reset) fun t =>
    t.phase == .done && t.alg == none && t.S.y4 ==
      ⟨0x940C7922AE3A2614, 0x1841F924A2C509E4, 0x16F53526E70465C2, 0x75F644E97F30A13B, 0xEAF1FF7B5CECA249⟩ := by
  decide +kernel

/-- In `SQUEEZING` the phase stays (R82). -/
theorem test_keccak_p_squeezing : andThen (exec .keccakP (at' .squeezing (some .sha3_256) [])) fun t =>
    t.phase == .squeezing && t.S.flat 0 == 0xF1258F7940E1DDE7#64 := by decide +kernel

/-- The empty message under SHA3-224 absorbed: the first 8 bytes of V-H1 as a lane. -/
theorem test_absorb_sha3_224 : andThen (exec (.absorbSha3_224 0 0) State.reset) fun t =>
    t.phase == .squeezing && t.alg == some .sha3_224 && hex (t.S.firstBytes 8) == 0x6b4e03423667dbb7 := by decide +kernel

/-- V-AB2. -/
theorem test_absorb_sha3_256 : andThen (exec (.absorbSha3_256 0x1000 3) (at' .empty none abc)) fun t =>
    t.phase == .squeezing && t.alg == some .sha3_256 && t.mem == abc && t.S.flat 0 == 0xB225E24FA75D983A#64 &&
    t.S.flat 24 == 0xB5D89C9E96E91041#64 := by decide +kernel

/-- V-H2, the first 8 bytes. -/
theorem test_absorb_sha3_384 : andThen (exec (.absorbSha3_384 0x1000 3) (at' .empty none abc)) fun t =>
    t.alg == some .sha3_384 && hex (t.S.firstBytes 8) == 0xec01498288516fc9 := by decide +kernel

/-- V-AB3: two blocks; L[24] from P3. -/
theorem test_absorb_sha3_512 : andThen (exec (.absorbSha3_512 0x4000 72) (at' .empty none (counting 72))) fun t =>
    t.alg == some .sha3_512 && t.S.flat 0 == 0x83A971E9BBF2635D#64 && t.S.flat 24 == 0x80E18851090F97AD#64 := by
  decide +kernel

/-- V-SQ2. -/
theorem test_absorb_shake128 : andThen (exec (.absorbShake128 0 0) State.reset) fun t =>
    t.alg == some .shake128 && t.S.y0 ==
      ⟨0x7D828FE8A42B9C7F, 0x3E85057650456061, 0x88BCEFF693803BD7, 0x26EF66FAAC6E1AEB, 0x934B0088A9EEB13C⟩ := by
  decide +kernel

/-- P6, command 1. -/
theorem test_absorb_shake256 : andThen (exec (.absorbShake256 0x1000 3) (at' .empty none abc)) fun t =>
    t.alg == some .shake256 && t.S.flat 0 == 0x77A8601360663348#64 && t.S.flat 3 == 0x39578BE737EA944F#64 := by
  decide +kernel

/-- P5, commands 1 and 4. -/
theorem test_wrong_phase : why (exec (.squeeze 0x5000 16) State.reset) = some .wrongPhase ∧
    why (exec (.absorbSha3_224 0 0) (at' .squeezing (some .sha3_224) [])) = some .wrongPhase := by decide +kernel

/-- V-SQ1: `OUT_LEN` is not examined, no permutation, `S` kept. -/
theorem test_squeeze_fixed :
    let s := { at' .squeezing (some .sha3_256) [] with
      S := ⟨⟨0x66D71EBFF8C6FFA7, 0x62D661A05647C151, 0xFA493BE44DFF80F5, 0x4A43F8804B0AD882, 0⟩, Row.zero, Row.zero,
        Row.zero, Row.zero⟩ }
    andThen (exec (.squeeze 0x2000 0) s) fun t => t.phase == .done && t.S == s.S &&
      dump t 0x2000 33 == 0xa7ffc6f8bf1ed76651c14756a061d662f580ff4de43b49fa82d80a4b80f8434a00 := by decide +kernel

/-- V-SQ2, `n = r + 1` on the zero state: the last byte is SB[0] of `KECCAK_P(0)` (V-KP1). -/
theorem test_squeeze_permutes : andThen (exec (.squeeze 0 169) (at' .squeezing (some .shake128) [])) fun t =>
    t.phase == .done && t.S.flat 0 == 0xF1258F7940E1DDE7#64 && dump t 167 3 == 0x00e700 := by decide +kernel

/-- V-H2. -/
theorem test_sha3_224_abc : andThen (exec (.sha3_224 0x1000 3 0x2000) (at' .done none abc)) fun t =>
    dump t 0x2000 28 == 0xe642824c3f8cf24ad09234ee7d3c766fc9a3a5168d0c94ad73b46fdf && t.phase == .done &&
    t.alg == some .sha3_224 := by decide +kernel

/-- V-H4, a single pad byte. -/
theorem test_sha3_224_143 : andThen (exec (.sha3_224 0x4000 143 0x2000) (at' .empty none (counting 143))) fun t =>
    dump t 0x2000 28 == 0x64d0e8a1be3cf30ef6727b30a6e428f7f068d44634c943d277ad8e7f := by decide +kernel

/-- P1. -/
theorem test_sha3_256_abc : andThen (exec (.sha3_256 0x1000 3 0x2000) (at' .squeezing (some .shake128) abc)) fun t =>
    dump t 0x2000 32 == 0x3a985da74fe225b2045c172d6bd390bd855f086e3e9d525b46bfe24511431532 && t.phase == .done &&
    t.alg == some .sha3_256 && t.S.flat 4 == 0xF81092FB22F636D1#64 && dump t 0x1000 3 == 0x616263 := by decide +kernel

/-- V-ME1 with `AW = 16`: the wrap check, one byte past the top and just below it. -/
theorem test_sha3_256_wrap :
    let s : State := { State.reset with widths := ⟨16, 64⟩ }
    why (exec (.sha3_256 0xFFFE 3 0) s) = some (.bufferNotAdmitted .message) ∧
    why (exec (.sha3_256 0xFFFD 3 0) s) = none := by decide +kernel

/-- V-H2. -/
theorem test_sha3_384_abc : andThen (exec (.sha3_384 0x1000 3 0x2000) (at' .empty none abc)) fun t =>
    dump t 0x2000 48 == 0xec01498288516fc926459f58e2c6ad8df9b473cb0fc08c2596da7cf0e49be4b298d88cea927ac7f539f1edf228376d25 &&
    t.alg == some .sha3_384 := by decide +kernel

/-- V-H4, two blocks with one message byte in the second. -/
theorem test_sha3_384_105 : andThen (exec (.sha3_384 0x4000 105 0x2000) (at' .empty none (counting 105))) fun t =>
    dump t 0x2000 48 == 0x4a2f0a8f2f1f4cc4605cc2537e0be28cf8b465c30f0a54b494a7128ec54ee4e85706b5e47a5697344d15cbf85680cd40 := by
  decide +kernel

/-- V-H1. -/
theorem test_sha3_512_empty : andThen (exec (.sha3_512 7 0 0x2000) State.reset) fun t =>
    dump t 0x2000 64 ==
      0xa69f73cca23a9ac5c8b567dc185a756e97c982164fe25859e0d1dcc1475c80a615b2123af1f5f94c11e3e9402c3ac558f500199d95b6d3e301758586281dcd26 := by
  decide +kernel

/-- P3: output buffer equal to the message buffer, two blocks; the last 8 message bytes are left. -/
theorem test_sha3_512_in_place : andThen (exec (.sha3_512 0x4000 72 0x4000) (at' .empty none (counting 72))) fun t =>
    dump t 0x4000 72 ==
      0x5d63f2bbe971a983ac6847480106e4e1264ee3a0befd79954914e1d86e795b2e18238f12fc5e46cb9cc78efdec610a93647cc04e1c23d8caaa6a58c21dd26c074041424344454647 := by
  decide +kernel

/-- V-S2. -/
theorem test_shake128_empty : andThen (exec (.shake128 7 0 0x3000 32) State.reset) fun t =>
    dump t 0x3000 33 == 0x7f9c2ba4e88f827d616045507605853ed73b8093f6efbc88eb1a6eacfa66ef2600 := by decide +kernel

/-- V-ME1: both lengths 0 with nothing admitted: accepted, `PHASE = DONE`, memory as it was. -/
theorem test_shake128_zero_lengths : andThen (exec (.shake128 0xDEAD 0 0xBEEF 0) (only [] [])) fun t =>
    t.phase == .done && t.mem == [] && t.S.flat 0 == 0x7D828FE8A42B9C7F#64 := by decide +kernel

/-- V-H2. -/
theorem test_shake256_abc : andThen (exec (.shake256 0x1000 3 0x6000 64) (at' .done (some .sha3_224) abc)) fun t =>
    dump t 0x6000 64 ==
      0x483366601360a8771c6863080cc4114d8db44530f8f1e1ee4f94ea37e78b5739d5a15bef186a5386c75744c0527e1faa9f8726e462a12a4feb06bd8801e751e4 &&
    t.alg == some .shake256 := by decide +kernel

/-- V-H4, a message of exactly one rate. -/
theorem test_shake256_136 : andThen (exec (.shake256 0x4000 136 0x6000 32) (at' .empty none (counting 136))) fun t =>
    dump t 0x6000 32 == 0xb7ff4073b3f5a8eabd6e17705ca7f6761a31058f9df781a6a47e3a3063b9d67a := by decide +kernel

/-! ### The step -/

/-- P5, commands 2, 5 and 8, each from the state the program has reached. -/
theorem test_step_reserved : why (step (State.reset.issuing (tableTransaction 0x26))) = some .reservedCommand := by decide +kernel

theorem test_step_out_len_ignored :
    andThen (step (State.issuing { only [] [⟨0x5000, 28⟩] with phase := .squeezing, alg := some .sha3_224 }
      ⟨0x30#8, 0, 0, 0x5000, 999⟩)) fun t => t.phase == .done && t.host == [] := by decide +kernel

theorem test_step_output_not_admitted :
    why (step (State.issuing { only [] [⟨0x5000, 28⟩] with phase := .done, alg := some .sha3_224 }
      ⟨0x41#8, 0, 0, 0x5000, 0⟩)) = some (.bufferNotAdmitted .output) := by decide +kernel

/-- 60_exceptions.md R194: message before output when both are refused. -/
theorem test_step_message_first : why (step (State.issuing (only [] []) ⟨0x41#8, 0, 1, 0, 0⟩)) =
    some (.bufferNotAdmitted .message) := by decide +kernel

/-- The fetched word is the one that runs, as the first command after reset. -/
theorem test_with_fetch_word : andThen (step (State.reset.withFetchWord 8 0x10)) fun t => t.phase == .done := by decide +kernel

/-- 10_state.md R23: reset of the block keeps memory and clears `ALG`. -/
theorem test_reset_event : andThen (step { at' .done (some .sha3_384) abc with S := oneLane 4 4 1, host := [.reset] })
    fun t => t == at' .empty none abc := by decide +kernel

theorem test_host_store : andThen (step { State.reset with host := [.store 0x1000 0x61#8] }) fun t =>
    t == at' .empty none [(0x1000, 0x61#8)] := by decide +kernel

/-! ### Witnesses: concrete states and operands that meet the hypotheses of each statement, one for each clause -/

/-- All addresses of a 16-bit space admitted, phase and parameter set given. -/
def narrow (p : Phase) (a : Option Alg) : State :=
  { State.reset with phase := p, alg := a, widths := ⟨16, 64⟩, readable := [⟨0, 0x10000⟩], writable := [⟨0, 0x10000⟩] }

/-- One readable byte and one writable byte, at 0x10 and at 0x20. -/
def tight (p : Phase) (a : Option Alg) : State :=
  { only [⟨0x10, 1⟩] [⟨0x20, 1⟩] with phase := p, alg := a }

theorem witness_DecodeOfEncodedCommand : ∀ i ∈ [Instr.init, .keccakP, .absorbSha3_224 1 255, .absorbSha3_256 1 255,
    .absorbSha3_384 1 255, .absorbSha3_512 1 255, .absorbShake128 1 255, .absorbShake256 1 255, .squeeze 1 255,
    .sha3_224 1 255 1, .sha3_256 1 255 1, .sha3_384 1 255 1, .sha3_512 1 255 1, .shake128 1 255 1 255,
    .shake256 1 255 1 255], i.wellFormed ⟨1, 8⟩ = true := by decide

theorem witness_DecodedTransactionCarriesCommand :
    decode ⟨16, 8⟩ ⟨0x45#8, 0xffff, 0xff, 0xffff, 0xff⟩ = .ok (.shake256 0xffff 0xff 0xffff 0xff) := by decide

theorem witness_UnusedFieldsHaveNoEffect :
    (Opcode.ofWord 0x00#8 = some .init ∧ agreeOn Opcode.init.format ⟨0x00#8, 1, 1, 1, 1⟩ ⟨0x00#8, 2, 2, 2, 2⟩) ∧
    (Opcode.ofWord 0x25#8 = some (.absorb .shake256) ∧
      agreeOn (Opcode.absorb .shake256).format ⟨0x25#8, 1, 1, 1, 1⟩ ⟨0x25#8, 1, 1, 2, 2⟩) ∧
    (Opcode.ofWord 0x30#8 = some .squeeze ∧ agreeOn Opcode.squeeze.format ⟨0x30#8, 1, 1, 1, 1⟩ ⟨0x30#8, 2, 2, 1, 1⟩) ∧
    (Opcode.ofWord 0x43#8 = some (.oneshot .sha3_512) ∧
      agreeOn (Opcode.oneshot .sha3_512).format ⟨0x43#8, 1, 1, 1, 1⟩ ⟨0x43#8, 1, 1, 1, 2⟩) ∧
    (Opcode.ofWord 0x44#8 = some (.oneshot .shake128) ∧
      agreeOn (Opcode.oneshot .shake128).format ⟨0x44#8, 1, 1, 1, 1⟩ ⟨0x44#8, 1, 1, 1, 1⟩) :=
  ⟨⟨by decide, trivial⟩, ⟨by decide, rfl, rfl⟩, ⟨by decide, rfl, rfl⟩, ⟨by decide, rfl, rfl, rfl⟩,
    ⟨by decide, rfl, rfl, rfl, rfl⟩⟩

theorem witness_ReservedWordsAreRefused : ∀ n ∈ [0x01, 0x2f, 0x46, 0x50, 0xff],
    (State.reset.issuing (tableTransaction n)).host = .issue (tableTransaction n) :: [] ∧
    Opcode.ofWord (tableTransaction n).cw = none := by decide

theorem witness_StepRunsDecodedCommand :
    (State.reset.issuing (tableTransaction 0x41)).host = .issue (tableTransaction 0x41) :: [] ∧
    decode State.reset.widths (tableTransaction 0x41) = .ok (.sha3_256 0 0 0) := by decide

theorem witness_IdleStepHoldsState : State.reset.host = [] := by decide

theorem witness_HostStoreLandsBetweenCommands :
    let s := { at' .squeezing (some .shake128) abc with host := [.store (2 ^ 64 - 1) 0#8] }
    s.host = .store (2 ^ 64 - 1) 0#8 :: [] ∧ 2 ^ 64 - 1 < 2 ^ s.widths.aw ∧ Memory.wf s.mem := by decide

theorem witness_ResetCreatesFreshState :
    ({ at' .done (some .shake128) abc with host := [.reset] } : State).host = .reset :: [] := by decide

/-- The four reasons in their order, each met with the earlier ones absent. -/
theorem witness_FirstRefusalReasonIsReported :
    (State.Inv ((tight .empty none).issuing ⟨0x50#8, 0, 0, 0, 0⟩) ∧ Opcode.ofWord 0x50#8 = none) ∧
    (State.Inv ((tight .empty none).issuing ⟨0x30#8, 0, 0, 0, 0⟩) ∧
      decode ⟨64, 64⟩ ⟨0x30#8, 0, 0, 0, 0⟩ = .ok (.squeeze 0 0) ∧ phaseTable (Instr.squeeze 0 0).opcode .empty = none) ∧
    (decode ⟨64, 64⟩ ⟨0x40#8, 0x10, 2, 0, 0⟩ = .ok (.sha3_224 0x10 2 0) ∧
      phaseTable (Instr.sha3_224 0x10 2 0).opcode .empty ≠ none ∧ ¬ (tight .empty none).admittedRead 0x10 2 = true) ∧
    (decode ⟨64, 64⟩ ⟨0x44#8, 0x10, 1, 0x20, 2⟩ = .ok (.shake128 0x10 1 0x20 2) ∧
      phaseTable (Instr.shake128 0x10 1 0x20 2).opcode .empty ≠ none ∧ (tight .empty none).admittedRead 0x10 1 = true ∧
      ¬ (tight .empty none).admittedWrite 0x20 2 = true) := by decide

theorem witness_AdmittedCommandsComplete :
    (State.Inv (tight .squeezing (some .shake256)) ∧ phaseTable (Instr.squeeze 0x20 1).opcode .squeezing ≠ none ∧
      (tight .squeezing (some .shake256)).admittedWrite 0x20
        (storedBytes (.squeeze 0x20 1) (tight .squeezing (some .shake256))) = true) ∧
    (tight .squeezing (some .shake256)).admittedWrite 0x20
        (storedBytes (.squeeze 0x20 2) (tight .squeezing (some .shake256))) = false := by decide

theorem witness_PhaseFollowsTheTable :
    (tight .empty none).phase ≠ .absorbing ∧ (∃ t, exec (.absorbShake128 0x10 1) (tight .empty none) = .next t) ∧
    exec (.absorbShake128 0x10 1) (tight .done none) = .refused .wrongPhase := ⟨by decide, ⟨_, rfl⟩, rfl⟩

theorem witness_CommandsStopForTheSpecsReasonsOnly :
    State.Inv (tight .empty none) ∧
    exec (.squeeze 0 0) (tight .empty none) = .refused .wrongPhase ∧
    exec (.absorbSha3_224 0x11 1) (tight .empty none) = .refused (.bufferNotAdmitted .message) ∧
    exec (.sha3_224 0x10 1 0x20) (tight .empty none) = .refused (.bufferNotAdmitted .output) :=
  ⟨by decide, rfl, rfl, rfl⟩

/-- Both sides of the admission rule: a buffer across two adjoining regions, to the top of the space, is admitted; one byte
more on either side is not. -/
theorem witness_BufferOutsideAdmittedMemoryIsRefused_admitted :
    let s : State := { State.reset with
      widths := ⟨8, 8⟩, readable := [⟨0xf8, 8⟩, ⟨0xf0, 8⟩], writable := [⟨0xf0, 9⟩, ⟨0xf7, 9⟩] }
    s.admittedRead 0xf0 16 = true ∧ s.admittedWrite 0xf0 16 = true ∧
    s.admittedRead 0xef 16 = false ∧ s.admittedWrite 0xef 16 = false ∧
    s.admittedRead 0xf0 17 = false ∧ s.admittedWrite 0xf0 17 = false := by decide

/-- Wrap past the top and a byte not admitted, for each of the two buffers. -/
theorem witness_BufferOutsideAdmittedMemoryIsRefused :
    (State.Inv (narrow .empty none) ∧ phaseTable (Instr.sha3_224 0xfffe 3 0xffe5).opcode .empty ≠ none ∧
      2 ^ (narrow .empty none).widths.aw < 0xfffe + 3) ∧
    (State.Inv (tight .empty none) ∧ ∃ k < 2, ∀ r ∈ (tight .empty none).readable,
      ¬ (r.base ≤ 0x10 + k ∧ 0x10 + k < r.base + r.size)) ∧
    ((narrow .empty none).admittedRead 0xfffd 3 = true ∧
      0 < storedBytes (.sha3_224 0xfffd 3 0xffe5) (narrow .empty none) ∧
      2 ^ (narrow .empty none).widths.aw < 0xffe5 + storedBytes (.sha3_224 0xfffd 3 0xffe5) (narrow .empty none)) ∧
    ((tight .empty none).admittedRead 0x10 1 = true ∧ 0 < storedBytes (.shake128 0x10 1 0x20 2) (tight .empty none) ∧
      ∃ k < storedBytes (.shake128 0x10 1 0x20 2) (tight .empty none), ∀ r ∈ (tight .empty none).writable,
        ¬ (r.base ≤ 0x20 + k ∧ 0x20 + k < r.base + r.size)) :=
  ⟨by decide, ⟨by decide, 1, by decide, by decide⟩, by decide, ⟨by decide, by decide, 1, by decide, by decide⟩⟩

/-- The five clauses in their order, nothing admitted but what the clause asks for. -/
theorem witness_ZeroLengthBuffersAreNotExamined :
    ((Instr.absorbSha3_224 0xdead 0).opcode = .absorb .sha3_224 ∧ (encode (.absorbSha3_224 0xdead 0)).msgLen = 0 ∧
      (only [] []).phase = .empty) ∧
    ((Instr.squeeze 0xbeef 0).opcode = .squeeze ∧ (encode (.squeeze 0xbeef 0)).outLen = 0 ∧
      (tight .squeezing (some .shake256)).phase = .squeezing ∧ (tight .squeezing (some .shake256)).alg = some .shake256 ∧
      (tight .squeezing (some .shake256)).admittedWrite 0xbeef 1 = false ∧ (PS .shake256).mode = .variable) ∧
    ((Instr.sha3_256 0xdead 0 0x20).opcode = .oneshot .sha3_256 ∧ (encode (.sha3_256 0xdead 0 0x20)).msgLen = 0 ∧
      (only [] [⟨0x20, 32⟩]).admittedWrite 0x20 (outputLength .sha3_256 0) = true) ∧
    ((Instr.shake128 0x10 1 0xbeef 0).opcode = .oneshot .shake128 ∧ (PS .shake128).mode = .variable ∧
      (encode (.shake128 0x10 1 0xbeef 0)).outLen = 0 ∧ (only [⟨0x10, 1⟩] []).admittedRead 0x10 1 = true) ∧
    ((Instr.shake256 0xdead 0 0xbeef 0).opcode = .oneshot .shake256 ∧ (encode (.shake256 0xdead 0 0xbeef 0)).msgLen = 0 ∧
      (encode (.shake256 0xdead 0 0xbeef 0)).outLen = 0) := by decide

theorem witness_EveryStepKeepsTheInvariants :
    let s := (at' .squeezing (some .shake128) abc).issuing ⟨0x30#8, 0, 0, 0x20, 1⟩
    State.Inv s ∧ ∃ t, step s = .next t := ⟨by decide, ⟨_, rfl⟩⟩

theorem witness_ParametersNeverChange :
    ∃ t, Reaches ((narrow .done none).issuing (tableTransaction 0x00)) t ∧ t.phase = .empty :=
  ⟨_, .tail (.refl _) rfl, rfl⟩

/-- The index ranges of ThetaFormula, RhoRotatesEachLane, PiMovesEachLane, ChiCombinesRowNeighbours, IotaChangesOneLane,
RoundAppliesFiveStepsInOrder, FiveStepsAreBijections, ByteViewIsLittleEndian and InitCreatesFreshState at their last
values. -/
theorem witness_lane_indices : 4 < 5 ∧ 199 < 200 ∧ 7 < 8 ∧ 63 < 64 ∧ 23 < 24 ∧ 24 < 25 ∧ ¬ (4 = 0 ∧ 4 = 0) := by decide

theorem witness_RotationOffsetsAreTheGenerated : ((1, 1), 44) ∈ rhoGenerated := by decide

theorem witness_RoundConstantsAreTheGenerated : 23 < 24 ∧ (RC 23).getLsbD 63 = true := by decide

/-- Two runs that leave equal `S` beside different phases, parameter sets and memories. -/
theorem witness_KeccakPermutationIsABijection :
    ∃ t t', exec .keccakP (at' .empty none []) = .next t ∧ exec .keccakP (at' .squeezing (some .sha3_224) abc) = .next t' ∧
      t.S = t'.S ∧ t ≠ t' := ⟨_, _, rfl, rfl, rfl, fun h => by simpa [at', abc] using congrArg State.mem h⟩

theorem witness_PadBytesHaveThreeShapes : 72 - 71 % 72 = 1 ∧ 2 ≤ 72 - 70 % 72 ∧ 2 ≤ 72 - 144 % 72 ∧ 0 < 72 := by decide

theorem witness_PaddingFillsWholeBlocks :
    0 < 2 ∧ 1 < [1#8, 2#8, 3#8, 4#8, 5#8].length / 2 ∧
    ([7#8] : List Byte).length % 2 = [1#8, 2#8, 3#8, 4#8, 5#8].length % 2 := by decide

theorem witness_XorBlockChangesTheRatePartOnly : (List.replicate 72 0xa3#8).length = (PS .sha3_512).rate ∧
    71 < 200 ∧ 199 < 200 ∧ 8 < 25 := by decide

theorem witness_AbsorbTakesBlocksInOrder :
    0 < 72 ∧ (List.replicate 72 0xa3#8).length = 72 ∧ (List.replicate 71 0xa3#8).length < 72 := by decide

theorem witness_SqueezeLengthAndPermutationCount : 0 < 168 ∧ 168 ≤ 168 ∧ 169 = 168 + 1 := by decide

theorem witness_SqueezeOutputByteByByte : 0 < 168 ∧ 168 < 169 := by decide

/-- Also for PermutationSkipsOneChunk. -/
theorem witness_SqueezePrefixExtensibility : 0 < (PS .shake128).rate := by decide

/-- Also for OutLenIsIgnoredForFixedOutput. -/
theorem witness_ParameterTable : (PS .sha3_224).mode = .fixed 28 ∧ (at' .squeezing (some .sha3_224) []).alg = some .sha3_224 := by
  decide

theorem witness_FixedOutputLengthAlways : (PS .sha3_512).mode = .fixed 64 ∧
    (at' .squeezing (some .sha3_512) []).alg = some .sha3_512 ∧
    ∃ t, exec (.squeeze 0 999) (at' .squeezing (some .sha3_512) []) = .next t := ⟨rfl, rfl, _, rfl⟩

/-- A message at the top of the address space; the empty message where nothing is admitted. -/
theorem witness_AbsorbAbsorbsTheMessage :
    ((narrow .empty none).phase = .empty ∧ (narrow .empty none).admittedRead 0xffff 1 = true) ∧
    (only [] []).phase = .empty ∧ (only [] []).admittedRead 0xdead 0 = true := by decide

/-- The two clauses of AbsorbAbsorbsTheMessage that refuse. -/
theorem witness_AbsorbAbsorbsTheMessage_refused :
    (narrow .squeezing (some .sha3_256)).phase ≠ .empty ∧
    (narrow .empty none).phase = .empty ∧ ¬ (narrow .empty none).admittedRead 0xffff 2 = true := by decide

/-- A fixed-output set and a variable-output one, each ending at the top of the address space. -/
theorem witness_SqueezeWritesTheOutput :
    ((narrow .squeezing (some .sha3_256)).phase = .squeezing ∧
      (narrow .squeezing (some .sha3_256)).alg = some .sha3_256 ∧ (PS .sha3_256).mode = .fixed 32 ∧
      (narrow .squeezing (some .sha3_256)).admittedWrite 0xffe0 32 = true) ∧
    ((narrow .squeezing (some .shake256)).phase = .squeezing ∧
      (narrow .squeezing (some .shake256)).alg = some .shake256 ∧ (PS .shake256).mode = .variable ∧
      (narrow .squeezing (some .shake256)).admittedWrite 0xffff 1 = true) := by decide

/-- The two clauses of SqueezeWritesTheOutput that refuse. -/
theorem witness_SqueezeWritesTheOutput_refused :
    (narrow .done (some .sha3_256)).phase ≠ .squeezing ∧
    ((narrow .squeezing (some .sha3_256)).phase = .squeezing ∧
      (narrow .squeezing (some .sha3_256)).alg = some .sha3_256 ∧
      (PS .sha3_256).mode = .fixed 32 ∧ ¬ (narrow .squeezing (some .sha3_256)).admittedWrite 0xffe1 32 = true) := by decide

/-- Also for XofOneshotsHashTheMessage. -/
theorem witness_FixedOneshotsHashTheMessage :
    (narrow .squeezing (some .shake128)).admittedRead 0xffff 1 = true ∧
    (narrow .squeezing (some .shake128)).admittedWrite 0xffe4 28 = true ∧
    (narrow .squeezing (some .shake128)).admittedWrite 0xffe0 32 = true ∧
    (narrow .squeezing (some .shake128)).admittedWrite 0xffd0 48 = true ∧
    (narrow .squeezing (some .shake128)).admittedWrite 0xffc0 64 = true ∧
    (narrow .squeezing (some .shake128)).admittedWrite 0xffff 1 = true := by decide

theorem witness_OneshotIsRefusedForItsBuffers :
    ((Instr.sha3_384 0xffff 2 0).opcode = .oneshot .sha3_384 ∧ ¬ (narrow .done none).admittedRead 0xffff 2 = true) ∧
    ((Instr.shake256 0xffff 1 0xffff 2).opcode = .oneshot .shake256 ∧
      (narrow .done none).admittedRead 0xffff 1 = true ∧
      ¬ (narrow .done none).admittedWrite 0xffff (outputLength .shake256 2) = true) := by decide

theorem witness_OneshotEqualsThreeCommands :
    (narrow .done none).phase ≠ .absorbing ∧
    (narrow .done none).admittedRead (encode (.shake128 0xffff 1 0xffff 1)).msgPtr
      (encode (.shake128 0xffff 1 0xffff 1)).msgLen = true ∧
    (narrow .done none).admittedWrite (encode (.shake128 0xffff 1 0xffff 1)).outPtr
      (storedBytes (.shake128 0xffff 1 0xffff 1) (narrow .done none)) = true := by decide

theorem witness_NonStoringCommandsFrame :
    (∃ t, exec .init (narrow .done none) = .next t) ∧ (∃ t, exec .keccakP (narrow .done none) = .next t) ∧
    ∃ t, exec (.absorbSha3_384 0xffff 1) (narrow .empty none) = .next t := ⟨⟨_, rfl⟩, ⟨_, rfl⟩, ⟨_, rfl⟩⟩

theorem witness_StoringCommandsFrame :
    Memory.wf (narrow .squeezing (some .shake128)).mem ∧
    (∃ t, exec (.squeeze 0xffff 1) (narrow .squeezing (some .shake128)) = .next t) ∧
    ∃ t, exec (.sha3_512 0xffff 1 0xffc0) (narrow .done none) = .next t := ⟨by decide, ⟨_, rfl⟩, ⟨_, rfl⟩⟩

/-- Two canonical memories that agree on the message buffer and differ beside it. -/
theorem witness_OnlyTheMessageBufferIsRead :
    (∃ t, exec (.shake128 0x1000 3 0 1) (at' .done none abc) = .next t) ∧
    (∀ k < 3, Memory.read ((0xfff, 1#8) :: abc) (0x1000 + k) = Memory.read abc (0x1000 + k)) ∧
    Memory.wf abc ∧ Memory.wf ((0xfff, 1#8) :: abc) ∧ 0 < storedBytes (.shake128 0x1000 3 0 1) (at' .done none abc) :=
  ⟨⟨_, rfl⟩, by decide⟩

/-- Two states that agree on the rate bytes of SHAKE128 and differ in the capacity part. -/
theorem witness_CapacityIsNotShown :
    outputLength .shake128 168 ≤ (PS .shake128).rate ∧
    (∀ k < 168, (oneLane 4 4 1).byte k = Lanes.zero.byte k) ∧ oneLane 4 4 1 ≠ Lanes.zero ∧
    ∃ t, exec (.squeeze 0 168) (at' .squeezing (some .shake128) []) = .next t :=
  ⟨by decide, by decide +kernel, by decide, _, rfl⟩

theorem witness_AdmissionIsDataIndependent :
    exec (.squeeze 0xffff 2) (narrow .squeezing (some .shake128)) = .refused (.bufferNotAdmitted .output) ∧
    Completes (.squeeze 0xffff 1) (narrow .squeezing (some .shake128)) := ⟨rfl, _, rfl⟩

theorem witness_EmptyMessageShake128Output :
    Memory.wf (narrow .done none).mem ∧ 32 ≤ 168 ∧ 168 ≤ 168 ∧ (narrow .done none).admittedWrite 0xff58 168 = true ∧
    (narrow .done none).admittedWrite 0xffe0 32 = true := by decide

theorem witness_EmptyMessageSha3_256Digest :
    Memory.wf (narrow .done none).mem ∧ (narrow .done none).admittedWrite 0xffe0 32 = true := by decide

end Sys2Proof.Tests
end

section
/-! PROOFS of 00_scope.md: the parameters of the model (widths, admitted addresses) are fixed along every run. -/

namespace Sys2Proof.Machine

/-- `t` has the parameters of `s`: its widths (00_scope.md R6) and its admitted addresses (20_memory.md R36). -/
def State.SameParameters (s t : State) : Prop :=
  t.widths = s.widths ∧ t.readable = s.readable ∧ t.writable = s.writable

theorem State.SameParameters.refl (s : State) : s.SameParameters s := ⟨rfl, rfl, rfl⟩

theorem State.SameParameters.trans {s t u : State} (hst : s.SameParameters t) (htu : t.SameParameters u) :
    s.SameParameters u := by
  obtain ⟨hw, hr, hwr⟩ := hst
  obtain ⟨hw', hr', hwr'⟩ := htu
  exact ⟨hw'.trans hw, hr'.trans hr, hwr'.trans hwr⟩

theorem State.sameParameters_withHost (s : State) (v : List HostEvent) : s.SameParameters (s.withHost v) := by
  simp [State.SameParameters]

/-- No command writes a parameter: none of the five shapes of a completed command touches those fields. -/
theorem exec_next_sameParameters {i : Instr} {s t : State} (h : exec i s = .next t) : s.SameParameters t := by
  rcases exec_next_cases h with ⟨-, rfl⟩ | ⟨-, rfl⟩ | ⟨a, -, -, -, rfl⟩ | ⟨a, -, -, -, -, rfl⟩ | ⟨a, -, -, -, rfl⟩
  · simp [State.SameParameters]
  · split <;> simp [State.SameParameters]
  · simp [State.SameParameters]
  · simp [State.SameParameters]
  · simp [State.SameParameters]

/-- No host action writes a parameter: an idle step, an issued command, a store or a reset of the block. -/
theorem step_next_sameParameters {s t : State} (h : step s = .next t) : s.SameParameters t := by
  rcases step_next_cases h with ⟨-, rfl⟩ | ⟨_, rest, _, -, -, hx⟩ | ⟨_, _, _, -, -, rfl⟩ | ⟨_, -, rfl⟩
  · exact .refl t
  · exact (s.sameParameters_withHost rest).trans (exec_next_sameParameters hx)
  · simp [State.SameParameters]
  · simp [State.SameParameters]

/-- Settles O19, by induction on the run: every step keeps the parameters. -/
theorem parametersNeverChange : Obligations.ParametersNeverChange := by
  intro s t hrun
  change s.SameParameters t
  induction hrun with
  | refl => exact .refl s
  | tail _ hstep ih => exact ih.trans (step_next_sameParameters hstep)

end Sys2Proof.Machine
end

section
/-! PROOFS of 10_state.md: the invariants are kept by every step, what a reset leaves, the byte view of `S`, and what the host
can see of the registers. -/

namespace Sys2Proof.Machine

/-! ### The zero state -/

@[simp] theorem Row.lane_zero (x : Nat) : Row.zero.lane x = 0#64 := by
  unfold Row.lane
  split <;> rfl

@[simp] theorem Lanes.lane_zero (x y : Nat) : Lanes.zero.lane x y = 0#64 := by
  have hrow : Lanes.zero.row y = Row.zero := by
    unfold Lanes.row
    split <;> rfl
  rw [Lanes.lane, hrow, Row.lane_zero]

@[simp] theorem Lanes.flat_zero (i : Nat) : Lanes.zero.flat i = 0#64 := Lanes.lane_zero _ _

/-! ### The length of an output -/

/-- The squeeze loop emits exactly the bytes asked for when its fuel reaches them. -/
theorem length_squeezeLoop {r : Nat} (hr : 0 < r) (fuel : Nat) (A : Lanes) {m : Nat} (hm : m ≤ fuel) :
    (squeezeLoop r fuel A m).1.length = m := by
  induction fuel generalizing A m with
  | zero => rw [squeezeLoop_of_le r 0 A (by omega), Lanes.length_firstBytes]
  | succ fuel ih =>
    by_cases h : m ≤ r
    · rw [squeezeLoop_of_le r _ A h, Lanes.length_firstBytes]
    · rw [squeezeLoop_succ_of_gt r fuel A (by omega), List.length_append, Lanes.length_firstBytes,
        ih (keccakP A) (by omega)]
      omega

/-- `SQUEEZE_FN` emits `n` bytes (42_sponge_squeeze.md R122). -/
theorem length_squeezeFn (A : Lanes) {r : Nat} (hr : 0 < r) (n : Nat) : (squeezeFn A r n).1.length = n := by
  unfold squeezeFn
  exact length_squeezeLoop hr n A (le_refl n)

/-! ### The invariants -/

/-- The part of the invariant about the host's memory: canonical, inside the address space, of legal widths. -/
def State.MemoryInv (s : State) : Prop :=
  Memory.wf s.mem ∧ Memory.within s.mem (2 ^ s.widths.aw) ∧ s.widths.Legal

/-- The part of the invariant about the three registers: the three clauses of 10_state.md R24. -/
def State.RegisterInv (s : State) : Prop :=
  s.phase ≠ .absorbing ∧ (s.phase = .empty → s.S = Lanes.zero) ∧ (s.phase = .squeezing → s.alg ≠ none)

theorem State.inv_iff (s : State) : s.Inv ↔ s.MemoryInv ∧ s.RegisterInv := by
  simp only [State.Inv, State.MemoryInv, State.RegisterInv, and_assoc]

/-- A change of registers only keeps the memory part. -/
theorem State.MemoryInv.of_eq {s t : State} (h : s.MemoryInv) (hm : t.mem = s.mem) (hw : t.widths = s.widths) :
    t.MemoryInv := by
  unfold State.MemoryInv
  rwa [hm, hw]

/-- The computation that has ended needs nothing of `S` and `ALG`. -/
theorem State.registerInv_of_done {s : State} (h : s.phase = .done) : s.RegisterInv := by
  simp [State.RegisterInv, h]

/-- A fresh state object meets R24 whatever `ALG` holds. -/
theorem State.registerInv_of_fresh {s : State} (hp : s.phase = .empty) (hS : s.S = Lanes.zero) : s.RegisterInv := by
  simp [State.RegisterInv, hp, hS]

/-- Storing the output in an admitted buffer keeps the memory part: an admitted buffer ends inside the address space. -/
theorem State.MemoryInv.squeezeOut {s : State} (h : s.MemoryInv) (a : Alg) {q n : Nat} (hq : s.admittedWrite q n = true) :
    (squeezeOut a q n s).MemoryInv := by
  obtain ⟨hwf, hin, hlegal⟩ := h
  have hlen : (squeezeFn s.S (PS a).rate n).1.length = n := length_squeezeFn s.S (rate_bounds a).1 n
  refine ⟨writeBytes_wf hwf q _, writeBytes_within hin q _ ?_, hlegal⟩
  rcases (admitted_iff s.widths s.writable q n).1 hq with hn | ⟨hend, -⟩
  · exact .inl (List.length_eq_zero_iff.1 (hlen.trans hn))
  · exact .inr (by rwa [hlen])

/-- A command that completes keeps the memory part: the five shapes store nothing, or the output in an admitted buffer. -/
theorem exec_next_memoryInv {i : Instr} {s t : State} (hs : s.MemoryInv) (h : exec i s = .next t) : t.MemoryInv := by
  rcases exec_next_cases h with ⟨-, rfl⟩ | ⟨-, rfl⟩ | ⟨a, -, -, -, rfl⟩ | ⟨a, -, -, -, hw, rfl⟩ | ⟨a, -, -, hw, rfl⟩
  · exact hs.of_eq (by simp) (by simp)
  · exact hs.of_eq (by split <;> simp) (by split <;> simp)
  · exact hs.of_eq (by simp) (by simp)
  · exact hs.squeezeOut a hw
  · exact (hs.of_eq (by simp) (by simp)).squeezeOut a (by simpa [State.admittedWrite] using hw)

/-- A command that completes keeps R24: INIT leaves a fresh state, KECCAK_P never ends in `EMPTY`, ABSORB latches `ALG`, and
a command with output ends in `DONE`. -/
theorem exec_next_registerInv {i : Instr} {s t : State} (hs : s.RegisterInv) (h : exec i s = .next t) : t.RegisterInv := by
  rcases exec_next_cases h with ⟨-, rfl⟩ | ⟨-, rfl⟩ | ⟨a, -, -, -, rfl⟩ | ⟨a, -, -, -, -, rfl⟩ | ⟨a, -, -, -, rfl⟩
  · exact State.registerInv_of_fresh (by simp) (by simp)
  · split
    · exact State.registerInv_of_done (by simp)
    · next hp =>
      obtain ⟨habs, -, hsq⟩ := hs
      exact ⟨by simpa using habs, fun he => absurd (by simpa using he) hp, by simpa using hsq⟩
  · simp [State.RegisterInv]
  · exact State.registerInv_of_done (by simp)
  · exact State.registerInv_of_done (by simp)

/-- Every host action keeps the memory part; a store is taken only below `2^AW`. -/
theorem step_next_memoryInv {s t : State} (hs : s.MemoryInv) (h : step s = .next t) : t.MemoryInv := by
  rcases step_next_cases h with ⟨-, rfl⟩ | ⟨_, rest, _, -, -, hx⟩ | ⟨a, v, rest, -, ha, rfl⟩ | ⟨rest, -, rfl⟩
  · exact hs
  · exact exec_next_memoryInv (hs.of_eq (t := s.withHost rest) (by simp) (by simp)) hx
  · obtain ⟨hwf, hin, hlegal⟩ := hs
    exact ⟨write_wf hwf a v, write_within hin ha v, hlegal⟩
  · exact hs.of_eq (by simp) (by simp)

/-- Every host action keeps R24: a store leaves the registers, a reset leaves a fresh state. -/
theorem step_next_registerInv {s t : State} (hs : s.RegisterInv) (h : step s = .next t) : t.RegisterInv := by
  rcases step_next_cases h with ⟨-, rfl⟩ | ⟨_, rest, _, -, -, hx⟩ | ⟨a, v, rest, -, -, rfl⟩ | ⟨rest, -, rfl⟩
  · exact hs
  · exact exec_next_registerInv (s := s.withHost rest) hs hx
  · exact hs
  · exact State.registerInv_of_fresh (by simp) (by simp)

/-- Settles O17: every step keeps the memory part and the register part of the invariant. -/
theorem everyStepKeepsTheInvariants : Obligations.EveryStepKeepsTheInvariants := by
  intro s t hs hstep
  rw [State.inv_iff] at hs ⊢
  obtain ⟨hmem, hreg⟩ := hs
  exact ⟨step_next_memoryInv hmem hstep, step_next_registerInv hreg hstep⟩

/-- Settles O18: memory after reset lists nothing, and the registers are those of a fresh state. -/
theorem resetMeetsTheInvariants : Obligations.ResetMeetsTheInvariants := by
  rw [Obligations.ResetMeetsTheInvariants, State.inv_iff]
  have hmem : State.reset.MemoryInv := by
    simp [State.MemoryInv, State.reset, Memory.wf, Widths.Legal, Config.defaultWidths]
  exact ⟨hmem, State.registerInv_of_fresh rfl rfl⟩

/-! ### Reset -/

theorem step_of_reset {s : State} {rest : List HostEvent} (h : s.host = .reset :: rest) :
    step s = .next (s.withHost rest).blockReset := by
  simp [step, nextAction, h, handle]

theorem exec_init (s : State) : exec .init s = .next s.fresh := exec_of_init rfl s

/-- Settles O9: the step is `blockReset` and INIT is `fresh`, which differ in `ALG` alone. -/
theorem resetCreatesFreshState : Obligations.ResetCreatesFreshState := by
  intro s rest h
  refine ⟨(s.withHost rest).blockReset, s.fresh, step_of_reset h, exec_init s, ?_⟩
  simp

/-- Settles O10: the reset state holds the zero lanes. -/
theorem registersAfterReset : Obligations.RegistersAfterReset :=
  ⟨fun i _ => Lanes.flat_zero i, rfl, rfl, rfl⟩

/-! ### The byte view of `S` -/

theorem getLsbD_laneByte (v : Lane) (k : Nat) {z : Nat} (hz : z < 8) :
    (laneByte v k).getLsbD z = v.getLsbD (8 * k + z) := by
  simp [laneByte, hz]

theorem toNat_laneByte (v : Lane) (k : Nat) : (laneByte v k).toNat = v.toNat / 2 ^ (8 * k) % 256 := by
  simp [laneByte, Nat.shiftRight_eq_div_pow]

/-- A lane is its eight bytes, the least significant first: the base-256 digits of a 64-bit number (10_state.md R13). -/
theorem le64_laneByte (v : Lane) :
    le64 (laneByte v 0) (laneByte v 1) (laneByte v 2) (laneByte v 3) (laneByte v 4) (laneByte v 5) (laneByte v 6)
      (laneByte v 7) = v := by
  have hv : v.toNat < 2 ^ 64 := v.isLt
  apply BitVec.eq_of_toNat_eq
  simp only [le64, BitVec.toNat_ofNat, toNat_laneByte]
  omega

/-- Byte `j` of lane `i` is byte `8*i + j` of the state. -/
theorem Lanes.byte_of_lane (A : Lanes) (i : Nat) {j : Nat} (hj : j < 8) : A.byte (8 * i + j) = laneByte (A.flat i) j := by
  rw [Lanes.byte, show (8 * i + j) / 8 = i by omega, show (8 * i + j) % 8 = j by omega]

/-- Settles O31: the bits of a byte, the bytes of a lane, and the read of any byte after a write of one. -/
theorem byteViewIsLittleEndian : Obligations.ByteViewIsLittleEndian := by
  refine ⟨fun A k z _ hz => getLsbD_laneByte _ _ hz, fun A i _ => ?_, fun A k j b hk hj => A.byte_setByte b hj hk⟩
  have hbyte0 : A.byte (8 * i) = laneByte (A.flat i) 0 := A.byte_of_lane i (j := 0) (by decide)
  simp [hbyte0, Lanes.byte_of_lane, le64_laneByte]

/-! ### Frame of the commands that store nothing -/

/-- Settles O53: of the five shapes of a completed command three are left, and none of them writes memory. -/
theorem nonStoringCommandsFrame : Obligations.NonStoringCommandsFrame := by
  intro i s t h hop
  obtain ⟨hw, hr, hwr⟩ := exec_next_sameParameters h
  have hframe : t.mem = s.mem ∧ t.host = s.host ∧ ((i.opcode = .init ∨ i.opcode = .keccakP) → t.alg = s.alg) := by
    rcases exec_next_cases h with ⟨-, rfl⟩ | ⟨-, rfl⟩ | ⟨a, ho, -, -, rfl⟩ | ⟨a, ho, -⟩ | ⟨a, ho, -⟩
    · simp
    · split <;> simp
    · simp [ho]
    · simp [ho] at hop
    · simp [ho] at hop
  obtain ⟨hmem, hhost, halg⟩ := hframe
  exact ⟨fun x => by rw [hmem], hmem, hr, hwr, hw, hhost, halg⟩

/-! ### What the host sees -/

theorem Lanes.firstBytes_congr {A B : Lanes} {n : Nat} (h : ∀ k < n, A.byte k = B.byte k) :
    A.firstBytes n = B.firstBytes n :=
  List.map_congr_left fun k hk => h k (List.mem_range.1 hk)

/-- What the host sees of an output of at most one rate: `DONE` and the first bytes of `S`, stored. -/
theorem hostView_squeezeOut_of_le {a : Alg} {n : Nat} (hn : n ≤ (PS a).rate) (q : Nat) (s : State) :
    (squeezeOut a q n s).hostView = (Phase.done.code, Memory.writeBytes s.mem q (s.S.firstBytes n)) := by
  simp [State.hostView, State.status, squeezeFn_of_le s.S hn]

/-- When `SQUEEZE` completes with `a` in `ALG`, and what it leaves: `S` has no part in the condition. -/
theorem exec_squeeze_next_iff {s t : State} {a : Alg} (ha : s.alg = some a) (q m : Nat) :
    exec (.squeeze q m) s = .next t ↔
      s.phase = .squeezing ∧ s.admittedWrite q (outputLength a m) = true ∧
        t = squeezeOut a q (outputLength a m) s := by
  change execSqueeze q m s = .next t ↔ _
  rcases execSqueeze_cases q m s with ⟨b, hp, hb, hw, he⟩ | ⟨hp, he⟩ | ⟨-, hb, -⟩ | ⟨b, -, hb, hw, he⟩
  · obtain rfl : a = b := Option.some.inj (ha.symm.trans hb)
    simp [he, hp, hw, eq_comm]
  · simp [he, hp]
  · simp [ha] at hb
  · obtain rfl : a = b := Option.some.inj (ha.symm.trans hb)
    simp [he, hw]

/-- Settles O56: both runs complete, and the stored bytes are the first bytes of `S`, all of the rate part. -/
theorem capacityIsNotShown : Obligations.CapacityIsNotShown := by
  intro q m a s t A ha hn hA h
  obtain ⟨hp, hw, rfl⟩ := (exec_squeeze_next_iff ha q m).1 h
  refine ⟨_, (exec_squeeze_next_iff (s := { s with S := A }) ha q m).2 ⟨hp, hw, rfl⟩, ?_⟩
  rw [hostView_squeezeOut_of_le hn, hostView_squeezeOut_of_le hn,
    Lanes.firstBytes_congr fun k hk => hA k (lt_of_lt_of_le hk hn)]

/-- The codes of the four phases differ (10_state.md R16). -/
theorem Phase.code_injective : Function.Injective Phase.code := by
  intro p p'
  cases p <;> cases p' <;> decide

theorem State.status_eq_code_iff (s : State) (p : Phase) : s.status = p.code ↔ s.phase = p :=
  Phase.code_injective.eq_iff

/-- Settles O58: each code is that of one phase, and the view is of `PHASE` and memory. -/
theorem hostReadsPhaseOnly : Obligations.HostReadsPhaseOnly :=
  ⟨fun s => ⟨s.status_eq_code_iff .empty, s.status_eq_code_iff .absorbing, s.status_eq_code_iff .squeezing,
    s.status_eq_code_iff .done⟩, fun _ _ _ => rfl⟩

end Sys2Proof.Machine
end

section
/-! PROOFS of 20_memory.md: host stores, admission of buffers, buffers of length 0, and which bytes of memory a command reads
and writes. -/

namespace Sys2Proof.Machine

open Sys2Proof.Spec

/-! ### Host stores -/

theorem step_of_store {s : State} {a : Nat} {v : Byte} {rest : List HostEvent} (h : s.host = .store a v :: rest)
    (ha : a < 2 ^ s.widths.aw) : step s = .next ((s.withHost rest).withMem (Memory.write s.mem a v)) := by
  simp [step, nextAction, h, handle, hostStore, ha]

/-- Settles O8: the step is one write to memory, read back by the law of read after write. -/
theorem hostStoreLandsBetweenCommands : Obligations.HostStoreLandsBetweenCommands := by
  intro s a v rest hhost ha hwf
  refine ⟨_, step_of_store hhost ha, ?_, fun x hx => ?_, rfl⟩
  · simp [read_write hwf]
  · simp [read_write hwf, hx]

/-! ### Admission of buffers -/

/-- The admission rule by offsets into the buffer and by single regions (20_memory.md R36). -/
theorem admitted_iff_offsets (w : Widths) (rs : List Region) (p n : Nat) :
    admitted w rs p n = true ↔
      n = 0 ∨ (p + n ≤ 2 ^ w.aw ∧ ∀ k < n, ∃ r ∈ rs, r.base ≤ p + k ∧ p + k < r.base + r.size) := by
  have hadmits : ∀ x, admits rs x = true ↔ ∃ r ∈ rs, r.base ≤ x ∧ x < r.base + r.size := by simp [admits]
  have hoffsets : (∀ x, p ≤ x → x < p + n → admits rs x = true) ↔ ∀ k < n, admits rs (p + k) = true := by
    constructor
    · exact fun h k hk => h (p + k) (by omega) (by omega)
    · intro h x hlo hhi
      simpa [Nat.add_sub_cancel' hlo] using h (x - p) (by omega)
  rw [admitted_iff, hoffsets]
  simp only [hadmits]

/-- A buffer of positive length that wraps, or one byte of which no region admits, is not admitted. -/
theorem not_admitted_of_outside {w : Widths} {rs : List Region} {p n : Nat} (hn : 0 < n)
    (h : 2 ^ w.aw < p + n ∨ ∃ k < n, ∀ r ∈ rs, ¬ (r.base ≤ p + k ∧ p + k < r.base + r.size)) :
    ¬ admitted w rs p n = true := by
  rw [admitted_iff_offsets]
  rintro (hzero | ⟨hend, hcov⟩)
  · omega
  · rcases h with hwrap | ⟨k, hk, hnone⟩
    · omega
    · obtain ⟨r, hr, hin⟩ := hcov k hk
      exact hnone r hr hin

@[simp] theorem admittedRead_zero (s : State) (p : Nat) : s.admittedRead p 0 = true := by
  simp [State.admittedRead, admitted]

@[simp] theorem admittedWrite_zero (s : State) (p : Nat) : s.admittedWrite p 0 = true := by
  simp [State.admittedWrite, admitted]

/-! ### The number of stored bytes -/

theorem storedBytes_of_squeeze {i : Instr} {s : State} {a : Alg} (ho : i.opcode = .squeeze) (ha : s.alg = some a) :
    storedBytes i s = outputLength a (encode i).outLen := by
  simp [storedBytes, ho, ha]

theorem storedBytes_of_oneshot {i : Instr} {a : Alg} (ho : i.opcode = .oneshot a) (s : State) :
    storedBytes i s = outputLength a (encode i).outLen := by
  simp [storedBytes, ho]

/-- Only SQUEEZE and the one-shots store. -/
theorem storedBytes_eq_zero {i : Instr} (h : i.opcode ≠ .squeeze ∧ ∀ a, i.opcode ≠ .oneshot a) (s : State) :
    storedBytes i s = 0 := by
  obtain ⟨hsq, hone⟩ := h
  cases ho : i.opcode with
  | init | keccakP | absorb a => simp [storedBytes, ho]
  | squeeze => exact absurd ho hsq
  | oneshot a => exact absurd ho (hone a)

/-! ### When a command with buffers completes, and when a buffer is what it is refused for -/

theorem phaseTable_absorb_ne_none {a : Alg} {p : Phase} : phaseTable (.absorb a) p ≠ none ↔ p = .empty := by
  cases p <;> simp [phaseTable]

theorem phaseTable_squeeze_ne_none {p : Phase} : phaseTable .squeeze p ≠ none ↔ p = .squeezing := by
  cases p <;> simp [phaseTable]

theorem exec_absorb_of_admitted {i : Instr} {a : Alg} {s : State} (ho : i.opcode = .absorb a) (hp : s.phase = .empty)
    (hr : s.admittedRead (encode i).msgPtr (encode i).msgLen = true) :
    exec i s = .next (absorbInto a (Memory.readBytes s.mem (encode i).msgPtr (encode i).msgLen) s) := by
  rw [exec_of_absorb ho, absorbCommand, requirePhase_pos hp, requireRead_pos hr]

theorem exec_squeeze_of_admitted {i : Instr} {a : Alg} {s : State} (ho : i.opcode = .squeeze) (hp : s.phase = .squeezing)
    (ha : s.alg = some a) (hw : s.admittedWrite (encode i).outPtr (outputLength a (encode i).outLen) = true) :
    exec i s = .next (squeezeOut a (encode i).outPtr (outputLength a (encode i).outLen) s) := by
  rw [exec_of_squeeze ho, execSqueeze, requirePhase_pos hp, ha]
  exact requireWrite_pos hw _

theorem exec_oneshot_of_admitted {i : Instr} {a : Alg} {s : State} (ho : i.opcode = .oneshot a)
    (hr : s.admittedRead (encode i).msgPtr (encode i).msgLen = true)
    (hw : s.admittedWrite (encode i).outPtr (outputLength a (encode i).outLen) = true) :
    exec i s = .next (squeezeOut a (encode i).outPtr (outputLength a (encode i).outLen)
      (absorbInto a (Memory.readBytes s.mem (encode i).msgPtr (encode i).msgLen) s.fresh)) := by
  rw [exec_of_oneshot ho, oneshotCommand, requireRead_pos hr, requireWrite_pos hw]

/-- In a phase that admits it, a command whose message buffer is not admitted is refused for that buffer. -/
theorem exec_of_not_admittedRead {i : Instr} {s : State} (hp : phaseTable i.opcode s.phase ≠ none)
    (hr : ¬ s.admittedRead (encode i).msgPtr (encode i).msgLen = true) :
    exec i s = .refused (.bufferNotAdmitted .message) := by
  cases ho : i.opcode with
  | init | keccakP | squeeze =>
    rw [encode_msgLen_zero (by simp [ho])] at hr
    exact absurd (admittedRead_zero s _) hr
  | absorb a =>
    rw [ho, phaseTable_absorb_ne_none] at hp
    rw [exec_of_absorb ho, absorbCommand, requirePhase_pos hp, requireRead_neg hr]
  | oneshot a => rw [exec_of_oneshot ho, oneshotCommand, requireRead_neg hr]

/-- In a phase that admits it, a command whose message buffer is admitted and whose output buffer is not is refused for the
output buffer. -/
theorem exec_of_not_admittedWrite {i : Instr} {s : State} (hp : phaseTable i.opcode s.phase ≠ none)
    (hr : s.admittedRead (encode i).msgPtr (encode i).msgLen = true)
    (hw : ¬ s.admittedWrite (encode i).outPtr (storedBytes i s) = true) :
    exec i s = .refused (.bufferNotAdmitted .output) := by
  cases ho : i.opcode with
  | init | keccakP | absorb _ =>
    rw [storedBytes_eq_zero (by simp [ho])] at hw
    exact absurd (admittedWrite_zero s _) hw
  | squeeze =>
    rw [ho, phaseTable_squeeze_ne_none] at hp
    cases ha : s.alg with
    | none => simp [storedBytes, ho, ha] at hw
    | some a =>
      rw [storedBytes_of_squeeze ho ha] at hw
      rw [exec_of_squeeze ho, execSqueeze, requirePhase_pos hp, ha]
      exact requireWrite_neg hw _
  | oneshot a =>
    rw [storedBytes_of_oneshot ho] at hw
    rw [exec_of_oneshot ho, oneshotCommand, requireRead_pos hr, requireWrite_neg hw]

/-- Settles O15: the admission rule by offsets, and the refusal of each buffer that fails it. -/
theorem bufferOutsideAdmittedMemoryIsRefused : Obligations.BufferOutsideAdmittedMemoryIsRefused := by
  refine ⟨fun s p n => ⟨admitted_iff_offsets _ _ p n, admitted_iff_offsets _ _ p n⟩, fun i s _ hp => ⟨?_, ?_⟩⟩
  · exact fun hn hout => exec_of_not_admittedRead hp (not_admitted_of_outside hn hout)
  · exact fun hr hn hout => exec_of_not_admittedWrite hp hr (not_admitted_of_outside hn hout)

/-! ### Buffers of length 0 -/

@[simp] theorem readBytes_zero (m : Memory) (p : Nat) : Memory.readBytes m p 0 = [] := rfl

@[simp] theorem squeezeFn_zero (A : Lanes) (r : Nat) : squeezeFn A r 0 = ([], A) := squeezeFn_of_le A (Nat.zero_le r)

/-- The empty message is one block of padding (41_sponge_absorb.md R102). -/
theorem absorbFn_nil (a : Alg) (A : Lanes) : absorbFn A [] (PS a).rate (PS a).sfx = emptyAbsorbed a A := by
  have hpos : 0 < (PS a).rate := (rate_bounds a).1
  have hlen : (padBytes 0 (PS a).rate (PS a).sfx).length = (PS a).rate := by simp [length_padBytes]
  have hblock : blockOf (padBytes 0 (PS a).rate (PS a).sfx) (PS a).rate 0 = padBytes 0 (PS a).rate (PS a).sfx := by
    simp [blockOf, List.take_of_length_le (Nat.le_of_eq hlen)]
  simp [absorbFn, pad, hlen, Nat.div_self hpos, List.range_one, hblock, emptyAbsorbed]

theorem outputLength_of_variable {a : Alg} (h : (PS a).mode = .variable) (m : Nat) : outputLength a m = m := by
  simp [outputLength, h]

/-- ABSORB of no bytes: whatever the message pointer, the padding block is absorbed. -/
theorem exec_absorb_of_empty_message {i : Instr} {a : Alg} {s : State} (ho : i.opcode = .absorb a)
    (hn : (encode i).msgLen = 0) (hp : s.phase = .empty) :
    exec i s = .next { s with S := emptyAbsorbed a s.S, phase := .squeezing, alg := some a } := by
  rw [exec_absorb_of_admitted ho hp (by simp [hn]), hn, readBytes_zero, ← absorbFn_nil]
  rfl

/-- SQUEEZE of no bytes: whatever the output pointer, only `PHASE` moves. -/
theorem exec_squeeze_of_empty_output {i : Instr} {a : Alg} {s : State} (ho : i.opcode = .squeeze)
    (hm : (encode i).outLen = 0) (hp : s.phase = .squeezing) (ha : s.alg = some a) (hv : (PS a).mode = .variable) :
    exec i s = .next { s with phase := .done } := by
  have hlen : outputLength a (encode i).outLen = 0 := by rw [outputLength_of_variable hv, hm]
  rw [exec_squeeze_of_admitted ho hp ha (by simp [hlen]), hlen, squeezeOut, squeezeFn_zero]
  rfl

/-- A one-shot of no message bytes: its output buffer is all it needs. -/
theorem exec_oneshot_of_empty_message {i : Instr} {a : Alg} {s : State} (ho : i.opcode = .oneshot a)
    (hn : (encode i).msgLen = 0)
    (hw : s.admittedWrite (encode i).outPtr (outputLength a (encode i).outLen) = true) :
    exec i s = .next { s with
      S := (squeezeFn (emptyAbsorbed a Lanes.zero) (PS a).rate (outputLength a (encode i).outLen)).2
      phase := .done
      alg := some a
      mem := Memory.writeBytes s.mem (encode i).outPtr
        (squeezeFn (emptyAbsorbed a Lanes.zero) (PS a).rate (outputLength a (encode i).outLen)).1 } := by
  rw [exec_oneshot_of_admitted ho (by simp [hn]) hw, hn, readBytes_zero, ← absorbFn_nil]
  rfl

/-- A one-shot of no output bytes: its message buffer is all it needs, and it stores nothing. -/
theorem exec_oneshot_of_empty_output {i : Instr} {a : Alg} {s : State} (ho : i.opcode = .oneshot a)
    (hv : (PS a).mode = .variable) (hm : (encode i).outLen = 0)
    (hr : s.admittedRead (encode i).msgPtr (encode i).msgLen = true) :
    exec i s = .next { s with
      S := absorbFn Lanes.zero (Memory.readBytes s.mem (encode i).msgPtr (encode i).msgLen) (PS a).rate (PS a).sfx
      phase := .done
      alg := some a } := by
  have hlen : outputLength a (encode i).outLen = 0 := by rw [outputLength_of_variable hv, hm]
  rw [exec_oneshot_of_admitted ho hr (by simp [hlen]), hlen, squeezeOut, squeezeFn_zero]
  rfl

/-- Settles O16: a buffer of length 0 is admitted, an empty message is the padding block, an empty output leaves `S` and
memory. With both empty it is the case without output, over the empty message. -/
theorem zeroLengthBuffersAreNotExamined : Obligations.ZeroLengthBuffersAreNotExamined := by
  intro i a s
  refine ⟨exec_absorb_of_empty_message, exec_squeeze_of_empty_output, exec_oneshot_of_empty_message,
    exec_oneshot_of_empty_output, fun ho hv hn hm => ?_⟩
  rw [exec_oneshot_of_empty_output ho hv hm (by simp [hn]), hn, readBytes_zero, absorbFn_nil]

/-! ### The bytes a command stores -/

/-- Storing an output leaves every byte outside its buffer. -/
theorem read_squeezeOut_of_outside {s : State} (h : Memory.wf s.mem) (a : Alg) {q n x : Nat} (hx : x < q ∨ q + n ≤ x) :
    Memory.read (squeezeOut a q n s).mem x = Memory.read s.mem x := by
  rw [squeezeOut_mem, read_writeBytes h, length_squeezeFn s.S (rate_bounds a).1, if_neg (by omega)]

/-- Byte `k` of the stored buffer is output byte `k`. -/
theorem read_squeezeOut {s : State} (h : Memory.wf s.mem) (a : Alg) (q : Nat) {n k : Nat} (hk : k < n) :
    some (Memory.read (squeezeOut a q n s).mem (q + k)) = (squeezeFn s.S (PS a).rate n).1[k]? := by
  have hlen : (squeezeFn s.S (PS a).rate n).1.length = n := length_squeezeFn s.S (rate_bounds a).1 n
  rw [squeezeOut_mem, read_writeBytes h, hlen, if_pos (by omega), Nat.add_sub_cancel_left]
  simp [hlen, hk]

/-- Settles O54: the two shapes of command that store are `squeezeOut` of the state with the message absorbed or not. -/
theorem storingCommandsFrame : Obligations.StoringCommandsFrame := by
  intro i s t h hwf hop
  obtain ⟨hw, hr, hwr⟩ := exec_next_sameParameters h
  rcases exec_next_cases h with ⟨ho, -⟩ | ⟨ho, -⟩ | ⟨a, ho, -⟩ | ⟨a, ho, -, ha, -, rfl⟩ | ⟨a, ho, -, -, rfl⟩
  · simp [ho] at hop
  · simp [ho] at hop
  · simp [ho] at hop
  · rw [storedBytes_of_squeeze ho ha]
    refine ⟨fun x hx => read_squeezeOut_of_outside hwf a hx, fun b _ hb k hk => ?_, by simp [ho], by simp, hr, hwr, hw,
      by simp⟩
    obtain rfl : a = b := Option.some.inj (ha.symm.trans hb)
    exact read_squeezeOut hwf a _ hk
  · rw [storedBytes_of_oneshot ho]
    refine ⟨fun x hx => read_squeezeOut_of_outside (by simpa using hwf) a hx, by simp [ho], fun b hb k hk => ?_,
      by simp [ho], hr, hwr, hw, by simp⟩
    obtain rfl : a = b := by simpa [ho] using hb
    exact read_squeezeOut (by simpa using hwf) a _ hk

/-! ### The bytes a command reads -/

theorem readBytes_congr {m m' : Memory} {p n : Nat} (h : ∀ k < n, Memory.read m' (p + k) = Memory.read m (p + k)) :
    Memory.readBytes m' p n = Memory.readBytes m p n :=
  List.map_congr_left fun k hk => h k (List.mem_range.1 hk)

/-- What is stored at an output buffer depends on `S` alone. -/
theorem read_squeezeOut_congr {s s' : State} (hS : s'.S = s.S) (h : Memory.wf s.mem) (h' : Memory.wf s'.mem) (a : Alg)
    (q : Nat) {n k : Nat} (hk : k < n) :
    Memory.read (squeezeOut a q n s').mem (q + k) = Memory.read (squeezeOut a q n s).mem (q + k) := by
  apply Option.some.inj
  rw [read_squeezeOut h' a q hk, read_squeezeOut h a q hk, hS]

/-- Settles O55: memory enters a command through the bytes of its message only. A command without output leaves the other
memory as it is; one with output stores the same bytes there. -/
theorem onlyTheMessageBufferIsRead : Obligations.OnlyTheMessageBufferIsRead := by
  intro i s t m h hagree
  have hmsg := readBytes_congr hagree
  change ∃ t', exec i (s.withMem m) = .next t' ∧ _
  rcases exec_next_cases h with ⟨ho, rfl⟩ | ⟨ho, rfl⟩ | ⟨a, ho, hp, hr, rfl⟩ | ⟨a, ho, hp, ha, hw, rfl⟩ |
    ⟨a, ho, hr, hw, rfl⟩
  · exact ⟨_, exec_of_init ho _, by simp [storedBytes_eq_zero, ho]⟩
  · refine ⟨_, exec_of_keccakP ho _, ?_⟩
    by_cases hp : s.phase = .empty <;> simp [hp, storedBytes_eq_zero, ho]
  · exact ⟨_, exec_absorb_of_admitted (s := s.withMem m) ho hp hr, by simp [hmsg, storedBytes_eq_zero, ho]⟩
  · refine ⟨_, exec_squeeze_of_admitted (s := s.withMem m) ho hp ha hw, by simp, by simp, by simp,
      fun hwf hwf' k hk => ?_⟩
    rw [storedBytes_of_squeeze ho ha] at hk
    exact read_squeezeOut_congr (by simp) hwf (by simpa using hwf') a _ hk
  · refine ⟨_, exec_oneshot_of_admitted (s := s.withMem m) ho hr hw, by simp [hmsg], by simp, by simp,
      fun hwf hwf' k hk => ?_⟩
    rw [storedBytes_of_oneshot ho] at hk
    exact read_squeezeOut_congr (by simp [hmsg]) (by simpa using hwf) (by simpa using hwf') a _ hk

end Sys2Proof.Machine
end

section
/-! PROOFS of 30_encoding.md: decoding and encoding, the reserved words, the step on an issued transaction, and the one-shot
as three commands. -/

namespace Sys2Proof

open Spec Machine

/-! ### What a word and a transaction decode to -/

theorem decode_of_reserved {t : Transaction} (h : Opcode.ofWord t.cw = none) (w : Widths) :
    decode w t = .error .reservedCommand := by
  simp [decode, h]

theorem decode_of_ofWord {t : Transaction} {o : Opcode} (h : Opcode.ofWord t.cw = some o) (w : Widths) :
    decode w t = if (o.toInstr t).wellFormed w then .ok (o.toInstr t) else .error .fieldTooWide := by
  simp [decode, h]

/-- When a transaction decodes to a command: the word is the command's, the operands are the used fields, and they fit. -/
theorem decode_eq_ok_iff {w : Widths} {t : Transaction} {i : Instr} :
    decode w t = .ok i ↔ ∃ o, Opcode.ofWord t.cw = some o ∧ o.toInstr t = i ∧ i.wellFormed w = true := by
  constructor
  · intro h
    cases ho : Opcode.ofWord t.cw with
    | none => simp [decode_of_reserved ho] at h
    | some o =>
      have hw := decode_wellFormed h
      rw [decode_of_ofWord ho] at h
      split at h <;> cases h
      exact ⟨o, rfl, rfl, hw⟩
  · rintro ⟨o, ho, rfl, hw⟩
    rw [decode_of_ofWord ho, if_pos hw]

/-- The transaction of a command carries the word of its operation. -/
@[simp] theorem encode_cw (i : Instr) : (encode i).cw = i.opcode.word := by cases i <;> rfl

/-- Settles O1: the word of an operation is looked up as that operation, which takes back the operands of the encoding. -/
theorem decodeOfEncodedCommand : Obligations.DecodeOfEncodedCommand := by
  intro w i hw
  have hword : Opcode.ofWord (encode i).cw = some i.opcode := by rw [encode_cw, Opcode.ofWord_word]
  exact decode_eq_ok_iff.2 ⟨i.opcode, hword, i.toInstr_encode, hw⟩

/-! ### The fields a format uses -/

/-- The command of an operation is encoded with the fields its format uses as they were. -/
theorem agreeOn_encode_toInstr (o : Opcode) (t : Transaction) : agreeOn o.format (encode (o.toInstr t)) t := by
  cases o with
  | init | keccakP => trivial
  | absorb a => cases a <;> exact ⟨rfl, rfl⟩
  | squeeze => exact ⟨rfl, rfl⟩
  | oneshot a =>
    cases a with
    | sha3_224 | sha3_256 | sha3_384 | sha3_512 => exact ⟨rfl, rfl, rfl⟩
    | shake128 | shake256 => exact ⟨rfl, rfl, rfl, rfl⟩

/-- The command of an operation depends on the fields its format uses alone. -/
theorem Opcode.toInstr_congr {o : Opcode} {t u : Transaction} (h : agreeOn o.format t u) :
    o.toInstr u = o.toInstr t := by
  cases o with
  | init | keccakP => rfl
  | absorb a =>
    obtain ⟨hp, hn⟩ := h
    cases a <;> simp [Opcode.toInstr, hp, hn]
  | squeeze =>
    obtain ⟨hq, hm⟩ := h
    simp [Opcode.toInstr, hq, hm]
  | oneshot a =>
    cases a with
    | sha3_224 | sha3_256 | sha3_384 | sha3_512 =>
      obtain ⟨hp, hn, hq⟩ := h
      simp [Opcode.toInstr, hp, hn, hq]
    | shake128 | shake256 =>
      obtain ⟨hp, hn, hq, hm⟩ := h
      simp [Opcode.toInstr, hp, hn, hq, hm]

/-- Settles O2: a decoded command is that of the operation its word is looked up as. -/
theorem decodedTransactionCarriesCommand : Obligations.DecodedTransactionCarriesCommand := by
  intro w t i h
  obtain ⟨o, ho, rfl, hw⟩ := decode_eq_ok_iff.1 h
  rw [encode_cw, Opcode.opcode_toInstr]
  exact ⟨Opcode.word_of_ofWord ho, agreeOn_encode_toInstr o t, hw⟩

/-- Transactions with the same word that agree on the used fields decode alike. -/
theorem decode_congr {t u : Transaction} {o : Opcode} (ho : Opcode.ofWord t.cw = some o) (hcw : u.cw = t.cw)
    (h : agreeOn o.format t u) (w : Widths) : decode w u = decode w t := by
  rw [decode_of_ofWord ho, decode_of_ofWord (hcw ▸ ho), Opcode.toInstr_congr h]

/-! ### The reserved words -/

theorem Alg.ofField_eq_none_iff (f : BitVec 4) : Alg.ofField f = none ↔ 6 ≤ f.toNat := by
  revert f
  decide

/-- The reserved words by class (30_encoding.md R57): classes 0, 1 and 3 have a parameter field of 0, classes 2 and 4 one of
the six codes, and the other classes have no operation. -/
theorem Opcode.ofWord_eq_none_iff (cw : BitVec 8) :
    Opcode.ofWord cw = none ↔
      (5 ≤ (opcField cw).toNat ∨
       ((opcField cw = 0 ∨ opcField cw = 1 ∨ opcField cw = 3) ∧ algField cw ≠ 0) ∨
       ((opcField cw = 2 ∨ opcField cw = 4) ∧ 6 ≤ (algField cw).toNat)) := by
  simp only [← BitVec.toNat_inj (x := opcField cw)]
  unfold Opcode.ofWord
  split
  · next hc => simp [hc]
  · next hc => simp [hc]
  · next hc => simp [hc, Alg.ofField_eq_none_iff]
  · next hc => simp [hc]
  · next hc => simp [hc, Alg.ofField_eq_none_iff]
  · next h0 h1 h2 h3 h4 =>
    simp only [imp_false] at h0 h1 h2 h3 h4
    have hc : 5 ≤ (opcField cw).toNat := by omega
    simp [hc]

theorem length_reservedWords :
    ((List.range 256).filter fun n => Opcode.ofWord (BitVec.ofNat 8 n) = none).length = 241 := by decide +kernel

namespace Machine

/-! ### The step on an issued transaction -/

theorem step_of_issue {s : State} {t : Transaction} {rest : List HostEvent} (h : s.host = .issue t :: rest) :
    step s = issue t (s.withHost rest) := by
  simp [step, nextAction, h, handle]

theorem issue_of_reserved {t : Transaction} (h : Opcode.ofWord t.cw = none) (s : State) :
    issue t s = .refused .reservedCommand := by
  simp [issue, decode_of_reserved h]

theorem issue_of_decode {s : State} {t : Transaction} {i : Instr} (h : decode s.widths t = .ok i) :
    issue t s = exec i s := by
  simp [issue, h]

/-- An issued transaction acts through what it decodes to. -/
theorem issue_congr {s : State} {t u : Transaction} (h : decode s.widths u = decode s.widths t) :
    issue u s = issue t s := by
  rw [issue, issue, h]

/-- Settles O3: the decoder does not look at the unused fields, and the step acts through the decoder. -/
theorem unusedFieldsHaveNoEffect : Obligations.UnusedFieldsHaveNoEffect := by
  intro t u o ho hcw hagree
  have hdecode := decode_congr ho hcw hagree
  refine ⟨hdecode, fun s rest => ?_⟩
  rw [step_of_issue (withHost_host s _), step_of_issue (withHost_host s _)]
  simpa using issue_congr (hdecode _)

/-- Settles O4: the classes of the reserved words, their number, and the refusal before anything else is looked at. -/
theorem reservedWordsAreRefused : Obligations.ReservedWordsAreRefused :=
  ⟨Opcode.ofWord_eq_none_iff, length_reservedWords,
    fun _ _ _ hhost h => (step_of_issue hhost).trans (issue_of_reserved h _)⟩

/-- Settles O5: seven closed transactions, looked up in the decoder. -/
theorem wordsOfTheMapDecode : Obligations.WordsOfTheMapDecode := by
  unfold Obligations.WordsOfTheMapDecode
  decide

/-- Settles O6: taking the action off the list leaves the widths, so the transaction decodes as before. -/
theorem stepRunsDecodedCommand : Obligations.StepRunsDecodedCommand := by
  intro s t rest i hhost hdecode
  exact (step_of_issue hhost).trans (issue_of_decode (by simpa using hdecode))

/-! ### A one-shot as three commands -/

/-- A one-shot equals INIT, ABSORB of the same set and message, and SQUEEZE to the same buffer: INIT leaves the fresh state
the one-shot starts from, ABSORB leaves the phase and set that SQUEEZE needs, and neither writes memory or what is admitted
(30_encoding.md R59). -/
theorem equalsThreeCommands_of_opcode {one absorb squeeze : Instr} {a : Alg} (hone : one.opcode = .oneshot a)
    (habs : absorb.opcode = .absorb a) (hsq : squeeze.opcode = .squeeze)
    (hmsg : (encode absorb).msgPtr = (encode one).msgPtr ∧ (encode absorb).msgLen = (encode one).msgLen)
    (hout : (encode squeeze).outPtr = (encode one).outPtr)
    (hlen : outputLength a (encode squeeze).outLen = outputLength a (encode one).outLen) :
    EqualsThreeCommands one absorb squeeze := by
  intro s _ hr hw
  obtain ⟨hp, hn⟩ := hmsg
  rw [storedBytes_of_oneshot hone] at hw
  refine ⟨s.fresh, absorbInto a (Memory.readBytes s.mem (encode one).msgPtr (encode one).msgLen) s.fresh, _, exec_init s,
    ?_, ?_, exec_oneshot_of_admitted hone hr hw⟩
  · rw [← hp, ← hn] at hr ⊢
    exact exec_absorb_of_admitted habs (fresh_phase s) hr
  · rw [← hout, ← hlen] at hw ⊢
    exact exec_squeeze_of_admitted hsq (absorbInto_phase a _ s.fresh) (absorbInto_alg a _ s.fresh) hw

/-- Settles O52: for a fixed-output set the output length does not depend on the `OUT_LEN` of the SQUEEZE. -/
theorem oneshotEqualsThreeCommands : Obligations.OneshotEqualsThreeCommands := by
  intro p n q m
  exact ⟨equalsThreeCommands_of_opcode rfl rfl rfl ⟨rfl, rfl⟩ rfl rfl,
    equalsThreeCommands_of_opcode rfl rfl rfl ⟨rfl, rfl⟩ rfl rfl,
    equalsThreeCommands_of_opcode rfl rfl rfl ⟨rfl, rfl⟩ rfl rfl,
    equalsThreeCommands_of_opcode rfl rfl rfl ⟨rfl, rfl⟩ rfl rfl,
    equalsThreeCommands_of_opcode rfl rfl rfl ⟨rfl, rfl⟩ rfl rfl,
    equalsThreeCommands_of_opcode rfl rfl rfl ⟨rfl, rfl⟩ rfl rfl⟩

end Machine
end Sys2Proof
end

section
/-! PROOFS of 40_keccak_p_permutation.md: the five steps lane by lane, the round and its constants, the permutation as a
bijection of the states, and the command KECCAK_P. -/

namespace Sys2Proof.Machine

open Sys2Proof.Spec

/-! ### Theta -/

@[simp] theorem columnParity_mod (A : Lanes) (x : Nat) : columnParity A (x % 5) = columnParity A x := by
  simp [columnParity]

theorem columnParity_congr (A : Lanes) {x x' : Nat} (h : x % 5 = x' % 5) : columnParity A x = columnParity A x' := by
  rw [← columnParity_mod, h, columnParity_mod]

theorem thetaEffect_congr (A : Lanes) {x x' : Nat} (h : x % 5 = x' % 5) : thetaEffect A x = thetaEffect A x' := by
  rw [thetaEffect, thetaEffect, columnParity_congr A (show (x + 4) % 5 = (x' + 4) % 5 by omega),
    columnParity_congr A (show (x + 1) % 5 = (x' + 1) % 5 by omega)]

@[simp] theorem rotl64_zero_left (n : Nat) : rotl64 0#64 n = 0#64 := by
  simp [rotl64, BitVec.rotateLeft_def]

@[simp] theorem rotl64_zero_right (v : Lane) : rotl64 v 0 = v := by
  simp [rotl64, BitVec.rotateLeft_def, BitVec.ushiftRight_eq_zero]

@[simp] theorem thetaEffect_zero (x : Nat) : thetaEffect Lanes.zero x = 0#64 := by
  simp [thetaEffect, columnParity]

@[simp] theorem theta_zero : theta Lanes.zero = Lanes.zero :=
  Lanes.ext_lane fun x hx y hy => by simp [lane_theta _ hx hy]

/-- Settles O20: the model's column parities written out, with their coordinates modulo 5. -/
theorem thetaFormula : Obligations.ThetaFormula :=
  ⟨fun A x y hx hy => by simp [lane_theta A hx hy, thetaEffect, columnParity, rotl64], theta_zero⟩

/-! ### Rho -/

@[simp] theorem rho_zero : rho Lanes.zero = Lanes.zero :=
  Lanes.ext_lane fun x hx y hy => by simp [lane_rho _ hx hy]

/-- Settles O21: each lane is rotated by an offset below 64, lane (0,0) by 0. -/
theorem rhoRotatesEachLane : Obligations.RhoRotatesEachLane := by
  refine ⟨fun A x y z hx hy hz => ?_, fun A => ?_⟩
  · rw [lane_rho A hx hy, getLsbD_rotl64 _ (RHO_lt x y) hz]
  · have hoffset : RHO 0 0 = 0 := rfl
    rw [lane_rho A (by decide) (by decide), hoffset, rotl64_zero_right]

/-! ### Pi -/

/-- The lane at `(x, y)` moves to `(y, 2x + 3y)`: there the equal form reads column `y + 3*(2x + 3y)`,
which is `x` modulo 5. -/
theorem lane_pi_moved (A : Lanes) {x y : Nat} (hy : y < 5) : (pi A).lane y ((2 * x + 3 * y) % 5) = A.lane x y := by
  rw [lane_pi A hy (Nat.mod_lt _ (by decide))]
  exact A.lane_congr (by omega) rfl

@[simp] theorem pi_zero : pi Lanes.zero = Lanes.zero :=
  Lanes.ext_lane fun x hx y hy => by simp [lane_pi _ hx hy]

theorem flat_pi (A : Lanes) {i : Nat} (hi : i < 25) : (pi A).flat i = A.lane (i % 5 + 3 * (i / 5)) (i % 5) :=
  lane_pi A (Nat.mod_lt _ (by decide)) (by omega)

/-- Where the flat index `i` of the permuted state is read from, when `src` is that lane's index. -/
theorem flat_pi_of_src (A : Lanes) {i src : Nat} (hi : i < 25) (hcol : (i % 5 + 3 * (i / 5)) % 5 = src % 5)
    (hrow : i % 5 = src / 5) : (pi A).flat i = A.flat src := by
  rw [flat_pi A hi, hrow]
  exact A.lane_congr (by omega) rfl

/-- Settles O22: the two forms of the move, and each entry of the two index tables by its coordinates. -/
theorem piMovesEachLane : Obligations.PiMovesEachLane := by
  refine ⟨fun A x y hx hy => ⟨lane_pi_moved A hy, ?_⟩, fun A i hi => flat_pi_of_src A hi ?_ ?_,
    fun A j hj => flat_pi_of_src A ?_ ?_ ?_⟩
  · rw [lane_pi A hx hy, Lanes.lane_mod_left]
  · revert i; decide
  · revert i; decide
  · revert j; decide
  · revert j; decide
  · revert j; decide

/-! ### Chi -/

@[simp] theorem chi_zero : chi Lanes.zero = Lanes.zero :=
  Lanes.ext_lane fun x hx y hy => by simp [lane_chi _ hx hy]

theorem lane_tabulate_const (v : Lane) (x y : Nat) : (Lanes.tabulate fun _ _ => v).lane x y = v := by
  rw [← Lanes.lane_mod_left, ← Lanes.lane_mod_right]
  exact Lanes.lane_tabulate _ (Nat.mod_lt _ (by decide)) (Nat.mod_lt _ (by decide))

theorem chi_allOnes :
    chi (Lanes.tabulate fun _ _ => BitVec.allOnes 64) = Lanes.tabulate fun _ _ => BitVec.allOnes 64 :=
  Lanes.ext_lane fun x hx y hy => by simp [lane_chi _ hx hy, lane_tabulate_const]

/-- Settles O23: the lane equation of chi, read at bit `z`. -/
theorem chiCombinesRowNeighbours : Obligations.ChiCombinesRowNeighbours :=
  ⟨fun A x y z hx hy hz => by simp [lane_chi A hx hy, hz], chi_zero, chi_allOnes⟩

/-! ### Iota -/

/-- Settles O24: the write of lane (0,0), seen through any lane. -/
theorem iotaChangesOneLane : Obligations.IotaChangesOneLane := fun A ir _ _ _ hx hy => lane_iota A ir hx hy

/-! ### The round and the 24 rounds -/

/-- Only lane (0,0) of a round's result depends on the round index. -/
theorem lane_keccakRound_of_ne (A : Lanes) (ir : Nat) {x y : Nat} (hx : x < 5) (hy : y < 5) (h : ¬ (x = 0 ∧ y = 0)) :
    (keccakRound A ir).lane x y = (chi (pi (rho (theta A)))).lane x y := by
  rw [keccakRound, lane_iota _ ir hx hy, if_neg h]

theorem keccakRound_zero (ir : Nat) : keccakRound Lanes.zero ir = Lanes.zero.setLane 0 0 (RC ir) := by
  simp [keccakRound, iota]

/-- Settles O25: the first four steps do not see the round index and fix the zero state. -/
theorem roundAppliesFiveStepsInOrder : Obligations.RoundAppliesFiveStepsInOrder := by
  refine ⟨fun _ _ _ => rfl, fun A ir ir' x y _ _ hx hy h => ?_, keccakRound_zero 0⟩
  rw [lane_keccakRound_of_ne A ir hx hy h, lane_keccakRound_of_ne A ir' hx hy h]

theorem foldl_keccakRound_eq_rounds (n : Nat) (A : Lanes) : (List.range n).foldl keccakRound A = rounds n A := by
  induction n with
  | zero => rfl
  | succ n ih =>
    rw [List.range_succ, List.foldl_append, ih]
    rfl

theorem keccakP_eq_rounds (A : Lanes) : keccakP A = rounds 24 A := by
  unfold keccakP
  exact foldl_keccakRound_eq_rounds 24 A

/-- Settles O26: the fold over the round indices is the recursion; the two lanes are one run of the permutation. -/
theorem permutationIsTwentyFourRounds : Obligations.PermutationIsTwentyFourRounds :=
  ⟨keccakP_eq_rounds, by decide +kernel⟩

/-! ### The constants -/

/-- Settles O27: the generator's 25 pairs are closed data. -/
theorem rotationOffsetsAreTheGenerated : Obligations.RotationOffsetsAreTheGenerated := by
  unfold Obligations.RotationOffsetsAreTheGenerated
  decide

/-- Settles O28: the 24 constants, their 64 bits each, and 16 outputs of the shift register are closed data. -/
theorem roundConstantsAreTheGenerated : Obligations.RoundConstantsAreTheGenerated := by
  unfold Obligations.RoundConstantsAreTheGenerated
  decide +kernel

/-! ### The relation between the column parities of two states with the same image under theta -/

/-- The relation theta leaves between the column parities of two states with the same image, on bits: `f x z` is bit `z` of
column `x`, with the shifts of theta as parameters. -/
def XorRecurrence (f : Nat → Nat → Bool) (a b n : Nat) : Prop :=
  ∀ x z, f x (z + n) = (f (x + a) (z + n) ^^ f (x + b) z)

/-- Substituting the relation into itself doubles its shifts: the two mixed terms cancel. -/
theorem XorRecurrence.double {f : Nat → Nat → Bool} {a b n : Nat} (h : XorRecurrence f a b n) :
    XorRecurrence f (2 * a) (2 * b) (2 * n) := by
  intro x z
  have h0 := h x (z + n)
  have ha := h (x + a) (z + n)
  have hb := h (x + b) z
  rw [show z + n + n = z + 2 * n by omega] at h0 ha
  rw [show x + a + a = x + 2 * a by omega] at ha
  rw [show x + b + a = x + a + b by omega, show x + b + b = x + 2 * b by omega] at hb
  rw [h0, ha, hb]
  simp

theorem XorRecurrence.double_iterate {f : Nat → Nat → Bool} {a b n : Nat} (h : XorRecurrence f a b n) (k : Nat) :
    XorRecurrence f (2 ^ k * a) (2 ^ k * b) (2 ^ k * n) := by
  induction k with
  | zero => simpa using h
  | succ k ih => simpa [pow_succ', Nat.mul_assoc] using ih.double

/-- `f` sees its column modulo 5 and its bit modulo 64. -/
def LanePeriodic (f : Nat → Nat → Bool) : Prop :=
  ∀ x x' z z' : Nat, x % 5 = x' % 5 → z % 64 = z' % 64 → f x z = f x' z'

/-- A relation whose bit shift is a whole number of lanes has no bit shift, and its column shifts count modulo 5. -/
theorem XorRecurrence.reduce {f : Nat → Nat → Bool} {a b n : Nat} (h : XorRecurrence f a b n) (hf : LanePeriodic f)
    (hn : n % 64 = 0) (x z : Nat) : f x z = (f (x + a % 5) z ^^ f (x + b % 5) z) :=
  calc f x z = f x (z + n) := hf _ _ _ _ rfl (by omega)
    _ = (f (x + a) (z + n) ^^ f (x + b) z) := h x z
    _ = (f (x + a % 5) z ^^ f (x + b % 5) z) := by
      rw [hf (x + a) (x + a % 5) (z + n) z (by omega) (by omega), hf (x + b) (x + b % 5) z z (by omega) rfl]

/-- The relation of theta has the solution 0 only. After 6 doublings `f x = f (x+1) ^ f (x+4)` and after 7
`f x = f (x+2) ^ f (x+3)`, without bit shift; the first put into the second gives `f x = f (x+4)`, so `f (x+1) = 0`. -/
theorem XorRecurrence.eq_false {f : Nat → Nat → Bool} (h : XorRecurrence f 4 1 1) (hf : LanePeriodic f) (x z : Nat) :
    f x z = false := by
  have h14 : ∀ x, f x z = (f (x + 1) z ^^ f (x + 4) z) := fun x => (h.double_iterate 6).reduce hf rfl x z
  have h23 : ∀ x, f x z = (f (x + 2) z ^^ f (x + 3) z) := fun x => (h.double_iterate 7).reduce hf rfl x z
  have hback : ∀ x, f x z = f (x + 4) z := fun x => by
    rw [h23 x, h14 (x + 3), hf (x + 3 + 4) (x + 2) z z (by omega) rfl, Bool.xor_comm (f (x + 3 + 1) z)]
    simp
  have cancel : ∀ {a b : Bool}, a = (b ^^ a) → b = false := by decide
  have hnext : f (x + 4 + 1) z = false := cancel ((h14 (x + 4)).trans (by rw [← hback (x + 4)]))
  rwa [hf (x + 4 + 1) x z z (by omega) rfl] at hnext

/-! ### The five steps are injective -/

/-- The formula of theta at coordinates modulo 5. -/
theorem lane_theta_mod (A : Lanes) (x y : Nat) : (theta A).lane x y = A.lane x y ^^^ thetaEffect A x := by
  rw [← Lanes.lane_mod_left, ← Lanes.lane_mod_right, lane_theta A (Nat.mod_lt _ (by decide)) (Nat.mod_lt _ (by decide)),
    Lanes.lane_mod_left, Lanes.lane_mod_right, thetaEffect_congr A (Nat.mod_mod x 5)]

/-- All five lanes of a column change by its effect, so its parity does. -/
theorem columnParity_theta (A : Lanes) (x : Nat) :
    columnParity (theta A) x = columnParity A x ^^^ thetaEffect A x := by
  simp only [columnParity, lane_theta_mod]
  ext z hz
  simp only [BitVec.getElem_xor]
  cases (thetaEffect A x)[z] <;> simp

/-- Bit `z` of the difference of column `x` between two states. -/
def parityDiff (A B : Lanes) (x z : Nat) : Bool :=
  (columnParity A x ^^^ columnParity B x).getLsbD (z % 64)

theorem parityDiff_periodic (A B : Lanes) : LanePeriodic (parityDiff A B) := by
  intro x x' z z' hx hz
  rw [parityDiff, parityDiff, columnParity_congr A hx, columnParity_congr B hx, hz]

theorem getLsbD_rotl64_one (v : Lane) (z : Nat) : (rotl64 v 1).getLsbD ((z + 1) % 64) = v.getLsbD (z % 64) := by
  rw [← getLsbD_rotl64 v (n := 1) (by decide) (Nat.mod_lt z (by decide)), Nat.mod_add_mod]

/-- Equal sums have equal differences. -/
theorem xor_differences {a b c a' b' c' : Bool} (h : (a ^^ (b ^^ c)) = (a' ^^ (b' ^^ c'))) :
    (a ^^ a') = ((b ^^ b') ^^ (c ^^ c')) := by
  revert h a b c a' b' c'
  decide

/-- The column parities of two states with the same image under theta differ by a solution of the relation of theta: the
parity and its effect change by the same amount. -/
theorem parityDiff_recurrence {A B : Lanes} (h : theta A = theta B) : XorRecurrence (parityDiff A B) 4 1 1 := by
  intro x z
  have hbit := congrArg (fun S => (columnParity S x).getLsbD ((z + 1) % 64)) h
  simp only [columnParity_theta, thetaEffect, BitVec.getLsbD_xor, getLsbD_rotl64_one] at hbit
  simp only [parityDiff, BitVec.getLsbD_xor]
  exact xor_differences hbit

theorem columnParity_eq_of_theta_eq {A B : Lanes} (h : theta A = theta B) (x : Nat) :
    columnParity A x = columnParity B x := by
  apply BitVec.eq_of_getLsbD_eq
  intro z hz
  have hzero := (parityDiff_recurrence h).eq_false (parityDiff_periodic A B) x z
  simpa [parityDiff, Nat.mod_eq_of_lt hz] using hzero

/-- Equal images have equal parities, hence equal effects, which cancel lane by lane. -/
theorem theta_injective : Function.Injective theta := by
  intro A B h
  refine Lanes.ext_lane fun x _ y _ => ?_
  have heffect : thetaEffect A x = thetaEffect B x := by
    simp only [thetaEffect, columnParity_eq_of_theta_eq h]
  have hlane := congrArg (fun S => S.lane x y) h
  simpa only [lane_theta_mod, heffect, BitVec.xor_left_inj] using hlane

theorem rotl64_injective {n : Nat} (hn : n < 64) : Function.Injective fun v => rotl64 v n := by
  intro v w h
  apply BitVec.eq_of_getLsbD_eq
  intro z hz
  rw [← getLsbD_rotl64 v hn hz, ← getLsbD_rotl64 w hn hz, show rotl64 v n = rotl64 w n from h]

theorem rho_injective : Function.Injective rho := by
  intro A B h
  refine Lanes.ext_lane fun x hx y hy => rotl64_injective (RHO_lt x y) ?_
  simpa only [lane_rho _ hx hy] using congrArg (fun S => S.lane x y) h

theorem pi_injective : Function.Injective pi := by
  intro A B h
  refine Lanes.ext_lane fun x _ y hy => ?_
  rw [← lane_pi_moved A hy, h, lane_pi_moved B hy]

/-- The formula of chi at coordinates modulo 5. -/
theorem lane_chi_mod (A : Lanes) (x y : Nat) :
    (chi A).lane x y = A.lane x y ^^^ (~~~A.lane (x + 1) y &&& A.lane (x + 2) y) := by
  rw [← Lanes.lane_mod_left, ← Lanes.lane_mod_right, lane_chi A (Nat.mod_lt _ (by decide)) (Nat.mod_lt _ (by decide)),
    Lanes.lane_mod_left, Lanes.lane_mod_right, Lanes.lane_mod_right, Lanes.lane_mod_right,
    A.lane_congr (show (x % 5 + 1) % 5 = (x + 1) % 5 by omega) (rfl : y % 5 = y % 5),
    A.lane_congr (show (x % 5 + 2) % 5 = (x + 2) % 5 by omega) (rfl : y % 5 = y % 5)]

/-- Chi on five bits in a ring has an inverse: each bit from all five of the image. -/
theorem chi_bit_inverse (a0 a1 a2 a3 a4 : Bool) :
    a0 = ((a0 ^^ (!a1 && a2)) ^^ (!(a1 ^^ (!a2 && a3)) &&
      ((a2 ^^ (!a3 && a4)) ^^ (!(a3 ^^ (!a4 && a0)) && (a4 ^^ (!a0 && a1)))))) := by
  revert a0 a1 a2 a3 a4
  decide

/-- A lane from the row of its image under chi. -/
theorem lane_eq_of_chi (A : Lanes) (x y : Nat) :
    A.lane x y = (chi A).lane x y ^^^ (~~~(chi A).lane (x + 1) y &&&
      ((chi A).lane (x + 2) y ^^^ (~~~(chi A).lane (x + 3) y &&& (chi A).lane (x + 4) y))) := by
  have h5 : A.lane (x + 5) y = A.lane x y := A.lane_congr (by omega) rfl
  have h6 : A.lane (x + 6) y = A.lane (x + 1) y := A.lane_congr (by omega) rfl
  simp only [lane_chi_mod, Nat.add_assoc, Nat.reduceAdd, h5, h6]
  ext z hz
  simpa using chi_bit_inverse (A.lane x y)[z] (A.lane (x + 1) y)[z] (A.lane (x + 2) y)[z] (A.lane (x + 3) y)[z]
    (A.lane (x + 4) y)[z]

theorem chi_injective : Function.Injective chi := by
  intro A B h
  refine Lanes.ext_lane fun x _ y _ => ?_
  rw [lane_eq_of_chi A, h, ← lane_eq_of_chi B]

theorem iota_injective (ir : Nat) : Function.Injective fun A => iota A ir := by
  intro A B h
  refine Lanes.ext_lane fun x hx y hy => ?_
  have hlane := congrArg (fun S => S.lane x y) h
  simp only [lane_iota _ ir hx hy] at hlane
  split at hlane
  · next h00 =>
    obtain ⟨rfl, rfl⟩ := h00
    exact (BitVec.xor_left_inj _).1 hlane
  · exact hlane

/-! ### The permutation is a bijection -/

theorem keccakRound_injective (ir : Nat) : Function.Injective fun A => keccakRound A ir :=
  (iota_injective ir).comp (chi_injective.comp (pi_injective.comp (rho_injective.comp theta_injective)))

theorem rounds_injective (n : Nat) : Function.Injective (rounds n) := by
  induction n with
  | zero => exact Function.injective_id
  | succ n ih => exact (keccakRound_injective n).comp ih

theorem keccakP_injective : Function.Injective keccakP := by
  rw [show keccakP = rounds 24 from funext keccakP_eq_rounds]
  exact rounds_injective 24

/-- The state is 25 words of 64 bits, so there are finitely many. -/
theorem finite_lanes : Finite Lanes := by
  have hinj : Function.Injective fun (A : Lanes) (p : Fin 5 × Fin 5) => A.lane p.1 p.2 := fun A B h =>
    Lanes.ext_lane fun x hx y hy => congrFun h (⟨x, hx⟩, ⟨y, hy⟩)
  exact .of_injective _ hinj

theorem keccakP_bijective : Function.Bijective keccakP :=
  haveI := finite_lanes
  Finite.injective_iff_bijective.1 keccakP_injective

/-! ### The command KECCAK_P -/

/-- KECCAK_P completes in every state: `S` is permuted, `EMPTY` goes to `DONE`. -/
theorem exec_keccakP (s : State) :
    exec .keccakP s = .next { s with S := keccakP s.S, phase := if s.phase = .empty then .done else s.phase } := by
  rw [exec_of_keccakP rfl, execKeccakP]
  by_cases h : s.phase = .empty
  · rw [if_pos h, if_pos h]
    rfl
  · rw [if_neg h, if_neg h]
    rfl

/-- Settles O45: in `EMPTY` and in the other phases. -/
theorem keccakPPermutesInPlace : Obligations.KeccakPPermutesInPlace := ⟨rfl, exec_keccakP⟩

theorem exec_keccakP_next_S {s t : State} (h : exec .keccakP s = .next t) : t.S = keccakP s.S := by
  rw [exec_keccakP] at h
  cases h
  rfl

/-- Settles O30: the five steps are injective, so the 24 rounds are, and there are finitely many states; the command leaves
the permuted `S`. -/
theorem keccakPermutationIsABijection : Obligations.KeccakPermutationIsABijection := by
  refine ⟨keccakP_bijective, fun s s' t t' h h' hS => keccakP_injective ?_⟩
  rw [← exec_keccakP_next_S h, hS, exec_keccakP_next_S h']

/-! ### A permutation before squeezing -/

/-- The fuel of the squeeze loop makes no difference once it reaches the bytes to emit. -/
theorem squeezeLoop_eq_of_le {r : Nat} (hr : 0 < r) {fuel fuel' m : Nat} (A : Lanes) (h : m ≤ fuel) (h' : m ≤ fuel') :
    squeezeLoop r fuel A m = squeezeLoop r fuel' A m := by
  induction fuel generalizing fuel' A m with
  | zero => rw [squeezeLoop_of_le r 0 A (by omega), squeezeLoop_of_le r fuel' A (by omega)]
  | succ fuel ih =>
    by_cases hm : m ≤ r
    · rw [squeezeLoop_of_le r _ A hm, squeezeLoop_of_le r _ A hm]
    · obtain ⟨k, rfl⟩ : ∃ k, fuel' = k + 1 := ⟨fuel' - 1, by omega⟩
      rw [squeezeLoop_succ_of_gt r fuel A (by omega), squeezeLoop_succ_of_gt r k A (by omega),
        ih (keccakP A) (m := m - r) (fuel' := k) (by omega) (by omega)]

theorem squeezeFn_eq_squeezeLoop {r fuel n : Nat} (hr : 0 < r) (A : Lanes) (h : n ≤ fuel) :
    squeezeFn A r n = squeezeLoop r fuel A n := by
  unfold squeezeFn
  exact squeezeLoop_eq_of_le hr A (le_refl n) h

/-- More than one rate: the first `r` bytes, then the output of the permuted state (42_sponge_squeeze.md R121). -/
theorem squeezeFn_of_gt (A : Lanes) {r n : Nat} (hr : 0 < r) (h : r < n) :
    squeezeFn A r n = (A.firstBytes r ++ (squeezeFn (keccakP A) r (n - r)).1, (squeezeFn (keccakP A) r (n - r)).2) := by
  rw [squeezeFn_eq_squeezeLoop hr A (Nat.le_succ n), squeezeLoop_succ_of_gt r n A h,
    ← squeezeFn_eq_squeezeLoop hr (keccakP A) (Nat.sub_le n r)]

/-- Settles O41: the longer output is the first `r` bytes and then the output of the permuted state. -/
theorem permutationSkipsOneChunk : Obligations.PermutationSkipsOneChunk := by
  intro A r n hr
  cases n with
  | zero => simp [squeezeFn_of_le A (le_refl r), Lanes.length_firstBytes]
  | succ n =>
    rw [squeezeFn_of_gt A hr (by omega), Nat.add_sub_cancel_left]
    exact (List.drop_left' (Lanes.length_firstBytes A r)).symm

end Sys2Proof.Machine
end

section
/-! PROOFS of 41_sponge_absorb.md: the pad bytes and the padded blocks, the padding rule on bits, the XOR of a block by bytes
and by lanes, absorbing block by block, its streaming form, and the six ABSORB commands. -/

namespace Sys2Proof.Machine

open Sys2Proof.Spec

/-! ### The pad bytes -/

theorem padBytes_of_one {Lm r : Nat} (sfx : Byte) (h : r - Lm % r = 1) : padBytes Lm r sfx = [sfx ||| 0x80#8] := by
  simp [padBytes, h]

theorem padBytes_of_two_le {Lm r : Nat} (sfx : Byte) (h : 2 ≤ r - Lm % r) :
    padBytes Lm r sfx = sfx :: (List.replicate (r - Lm % r - 2) 0#8 ++ [0x80#8]) := by
  obtain ⟨z, hz⟩ : ∃ z, r - Lm % r = z + 2 := ⟨r - Lm % r - 2, by omega⟩
  have hlast : (List.replicate (z + 1) 0#8).modify z (· ||| 0x80#8) = List.replicate z 0#8 ++ [0x80#8] := by
    rw [List.replicate_succ', List.modify_eq_take_cons_drop (by simp)]
    simp
  simp [padBytes, hz, List.replicate_succ, ← hlast]

/-- The pad bytes depend on the message's length modulo the rate only (41_sponge_absorb.md R102). -/
theorem padBytes_congr {Lm Lm' r : Nat} (sfx : Byte) (h : Lm' % r = Lm % r) : padBytes Lm' r sfx = padBytes Lm r sfx := by
  simp [padBytes, h]

/-! ### The padded message -/

theorem length_pad (M : List Byte) (r : Nat) (sfx : Byte) : (pad M r sfx).length = M.length + (r - M.length % r) := by
  simp [pad, length_padBytes]

/-- The padding fills up the block after the last full one of the message. -/
theorem length_pad_eq_blocks (M : List Byte) {r : Nat} (sfx : Byte) (hr : 0 < r) :
    (pad M r sfx).length = (M.length / r + 1) * r := by
  have hdiv := Nat.div_add_mod' M.length r
  have hmod := Nat.mod_lt M.length hr
  rw [length_pad, Nat.succ_mul]
  omega

/-- Settles O32: the pad bytes fill up the last block, so the length is a whole number of blocks. -/
theorem padBytesHaveThreeShapes : Obligations.PadBytesHaveThreeShapes := by
  intro Lm r sfx hr
  refine ⟨fun M => ⟨rfl, length_pad M r sfx, ?_⟩, padBytes_of_one sfx, padBytes_of_two_le sfx⟩
  rw [length_pad_eq_blocks M sfx hr, Nat.mul_mod_left]

/-! ### Blocks -/

@[simp] theorem blockOf_zero (P : List Byte) (r : Nat) : blockOf P r 0 = P.take r := by simp [blockOf]

/-- A block that ends inside the first of two sequences is a block of that one. -/
theorem blockOf_append_left {P : List Byte} (Q : List Byte) {r k : Nat} (h : (k + 1) * r ≤ P.length) :
    blockOf (P ++ Q) r k = blockOf P r k := by
  rw [Nat.succ_mul] at h
  rw [blockOf, List.drop_append_of_le_length (by omega), List.take_append_of_le_length (by rw [List.length_drop]; omega),
    blockOf]

/-- After a first block of `r` bytes, block `k + 1` is block `k` of the rest. -/
theorem blockOf_append_succ {B : List Byte} {r : Nat} (P : List Byte) (hB : B.length = r) (k : Nat) :
    blockOf (B ++ P) r (k + 1) = blockOf P r k := by
  rw [blockOf, blockOf, Nat.succ_mul, Nat.add_comm, ← List.drop_drop, List.drop_left' hB]

/-- A block before the last holds message bytes only. -/
theorem blockOf_pad_of_lt (M : List Byte) {r k : Nat} (sfx : Byte) (hk : k < M.length / r) :
    blockOf (pad M r sfx) r k = blockOf M r k :=
  blockOf_append_left _ ((Nat.mul_le_mul_right r hk).trans (Nat.div_mul_le_self M.length r))

/-- The last block is the rest of the message and the pad bytes. -/
theorem blockOf_pad_last (M : List Byte) {r : Nat} (sfx : Byte) (hr : 0 < r) :
    blockOf (pad M r sfx) r (M.length / r) = M.drop (M.length / r * r) ++ padBytes M.length r sfx := by
  have hlen := length_pad_eq_blocks M sfx hr
  rw [Nat.succ_mul] at hlen
  rw [blockOf, List.take_of_length_le (by rw [List.length_drop]; omega), pad,
    List.drop_append_of_le_length (Nat.div_mul_le_self M.length r)]

/-- Settles O33: every block ends inside the message but the last, which is what remains. -/
theorem paddingFillsWholeBlocks : Obligations.PaddingFillsWholeBlocks := by
  intro M r sfx hr
  have hlen := length_pad M r sfx
  have hmod := Nat.mod_lt M.length hr
  exact ⟨length_pad_eq_blocks M sfx hr, by omega, by omega, length_padBytes _ r sfx,
    fun k hk => blockOf_pad_of_lt M sfx hk, blockOf_pad_last M sfx hr, fun M' h => padBytes_congr sfx h⟩

/-! ### Padding on bits -/

theorem bitsOf_append (M N : List Byte) : bitsOf (M ++ N) = bitsOf M ++ bitsOf N := List.flatMap_append

theorem bitsOf_cons (b : Byte) (M : List Byte) : bitsOf (b :: M) = bitsOfByte b ++ bitsOf M := rfl

theorem bitsOf_singleton (b : Byte) : bitsOf [b] = bitsOfByte b := by simp [bitsOf]

theorem length_bitsOf (M : List Byte) : (bitsOf M).length = 8 * M.length := by
  simp [bitsOf, bitsOfByte, Nat.mul_comm]

theorem bitsOf_zeros (n : Nat) : bitsOf (List.replicate n 0#8) = List.replicate (8 * n) false := by
  induction n with
  | zero => rfl
  | succ n ih =>
    rw [List.replicate_succ, bitsOf_cons, ih, Nat.mul_succ, Nat.add_comm, List.replicate_add]
    rfl

/-- The first pad byte is the domain suffix and the first 1 of the padding (41_sponge_absorb.md R101). -/
theorem bitsOfByte_sfx (a : Alg) :
    bitsOfByte (PS a).sfx = (PS a).suffix ++ [true] ++ List.replicate (7 - (PS a).suffix.length) false := by
  cases a <;> decide

/-- A single pad byte holds the final 1 of the padding also. -/
theorem bitsOfByte_sfx_or_last (a : Alg) :
    bitsOfByte ((PS a).sfx ||| 0x80#8) =
      (PS a).suffix ++ [true] ++ List.replicate (6 - (PS a).suffix.length) false ++ [true] := by
  cases a <;> decide

theorem bitsOfByte_last : bitsOfByte 0x80#8 = List.replicate 7 false ++ [true] := by decide

theorem length_suffix_le (a : Alg) : (PS a).suffix.length ≤ 4 := by
  cases a <;> decide

/-- The number of zero bits in the padding of a message of `Lm` bytes: what `q` pad bytes hold beside the domain suffix and
the two 1s (41_sponge_absorb.md R101: `8*q - 4` for SHA3, `8*q - 6` for SHAKE). -/
def padZeroBits (a : Alg) (Lm : Nat) : Nat := 8 * ((PS a).rate - Lm % (PS a).rate) - ((PS a).suffix.length + 2)

/-- Suffix, zeros and the two 1s fill the pad bytes: one pad byte has room for the suffix and both 1s. -/
theorem padZeroBits_add (a : Alg) (Lm : Nat) :
    padZeroBits a Lm + ((PS a).suffix.length + 2) = 8 * ((PS a).rate - Lm % (PS a).rate) := by
  have hq : Lm % (PS a).rate < (PS a).rate := Nat.mod_lt _ (rate_bounds a).1
  have hsuffix := length_suffix_le a
  rw [padZeroBits]
  omega

/-- The pad bytes as bits: suffix, 1, zeros and 1. -/
theorem bitsOf_padBytes (a : Alg) (Lm : Nat) :
    bitsOf (padBytes Lm (PS a).rate (PS a).sfx) =
      (PS a).suffix ++ [true] ++ List.replicate (padZeroBits a Lm) false ++ [true] := by
  have hsum := padZeroBits_add a Lm
  have hsuffix := length_suffix_le a
  obtain hone | htwo : (PS a).rate - Lm % (PS a).rate = 1 ∨ 2 ≤ (PS a).rate - Lm % (PS a).rate := by omega
  · have hzeros : padZeroBits a Lm = 6 - (PS a).suffix.length := by omega
    rw [padBytes_of_one _ hone, bitsOf_singleton, bitsOfByte_sfx_or_last, hzeros]
  · have hzeros : padZeroBits a Lm =
        (7 - (PS a).suffix.length) + 8 * ((PS a).rate - Lm % (PS a).rate - 2) + 7 := by omega
    rw [padBytes_of_two_le _ htwo, bitsOf_cons, bitsOf_append, bitsOf_zeros, bitsOf_singleton, bitsOfByte_sfx,
      bitsOfByte_last, hzeros, List.replicate_add, List.replicate_add]
    simp only [List.append_assoc]

/-- Between a multiple of `m` and the numbers less than `m` below it there is no other multiple. -/
theorem mod_ne_zero_of_lt {m n n' : Nat} (hn : n % m = 0) (hlt : n' < n) (hm : n < n' + m) : n' % m ≠ 0 := by
  intro hn'
  have hdvd : m ∣ n - n' := Nat.dvd_sub (Nat.dvd_of_mod_eq_zero hn) (Nat.dvd_of_mod_eq_zero hn')
  have hle := Nat.le_of_dvd (by omega) hdvd
  omega

/-- Settles O34. Fewer than `8 * r` zero bits are the least number: with fewer still, a total of whole blocks would be a
whole block shorter. -/
theorem bytePaddingIsBitPadding : Obligations.BytePaddingIsBitPadding := by
  intro a M
  have hsum := padZeroBits_add a M.length
  have htotal : (bitsOf M).length + (PS a).suffix.length + 1 + padZeroBits a M.length + 1 =
      8 * (pad M (PS a).rate (PS a).sfx).length := by
    rw [length_bitsOf, length_pad]
    omega
  have hwhole : 8 * (pad M (PS a).rate (PS a).sfx).length % (8 * (PS a).rate) = 0 := by
    rw [length_pad_eq_blocks M _ (rate_bounds a).1, Nat.mul_mod_mul_left, Nat.mul_mod_left]
  refine ⟨padZeroBits a M.length, ?_, by rw [htotal, hwhole],
    fun j' hj' => mod_ne_zero_of_lt hwhole (by omega) (by omega)⟩
  rw [pad, bitsOf_append, bitsOf_padBytes]
  simp only [List.append_assoc]

/-! ### The state by its bytes -/

theorem laneByte_xor (v w : Lane) (k : Nat) : laneByte (v ^^^ w) k = laneByte v k ^^^ laneByte w k :=
  BitVec.extractLsb'_xor

/-- Two lanes with the same eight bytes are equal. -/
theorem lane_ext_laneByte {v w : Lane} (h : ∀ j < 8, laneByte v j = laneByte w j) : v = w := by
  rw [← le64_laneByte v, ← le64_laneByte w, h 0 (by decide), h 1 (by decide), h 2 (by decide), h 3 (by decide),
    h 4 (by decide), h 5 (by decide), h 6 (by decide), h 7 (by decide)]

/-- The bytes of `le64` are the eight it was given (00_scope.md R231). -/
theorem laneByte_le64 (b : Nat → Byte) {j : Nat} (hj : j < 8) :
    laneByte (le64 (b 0) (b 1) (b 2) (b 3) (b 4) (b 5) (b 6) (b 7)) j = b j := by
  apply BitVec.eq_of_toNat_eq
  rw [toNat_laneByte, le64, BitVec.toNat_ofNat]
  interval_cases j <;> omega

/-- Two states with the same 200 bytes are equal. -/
theorem Lanes.ext_byte {A B : Lanes} (h : ∀ k < 200, A.byte k = B.byte k) : A = B := by
  have hflat : ∀ i < 25, A.flat i = B.flat i := fun i hi => lane_ext_laneByte fun j hj => by
    rw [← A.byte_of_lane i hj, ← B.byte_of_lane i hj, h _ (by omega)]
  refine Lanes.ext_lane fun x hx y hy => ?_
  have hxy := hflat (5 * y + x) (by omega)
  rwa [Lanes.flat, Lanes.flat, show (5 * y + x) % 5 = x by omega, show (5 * y + x) / 5 = y by omega] at hxy

/-! ### The XOR of a block -/

theorem byte_xorBlock (A : Lanes) {block : List Byte} (hb : block.length ≤ 200) {k : Nat} (hk : k < 200) :
    (xorBlock A block).byte k = if k < block.length then A.byte k ^^^ block.getD k 0#8 else A.byte k := by
  simp [xorBlock, byte_xorBlockFrom A 0 block (by omega) hk]

/-- A block of whole lanes, by lanes (41_sponge_absorb.md R103). -/
theorem flat_xorBlock (A : Lanes) {block : List Byte} (hb : block.length ≤ 200) (h8 : 8 ∣ block.length) {i : Nat}
    (hi : i < 25) :
    (xorBlock A block).flat i =
      if i < block.length / 8 then
        A.flat i ^^^ le64 (block.getD (8 * i) 0#8) (block.getD (8 * i + 1) 0#8) (block.getD (8 * i + 2) 0#8)
          (block.getD (8 * i + 3) 0#8) (block.getD (8 * i + 4) 0#8) (block.getD (8 * i + 5) 0#8)
          (block.getD (8 * i + 6) 0#8) (block.getD (8 * i + 7) 0#8)
      else A.flat i := by
  apply lane_ext_laneByte
  intro j hj
  rw [← Lanes.byte_of_lane _ i hj, byte_xorBlock A hb (by omega), A.byte_of_lane i hj]
  by_cases hlt : i < block.length / 8
  · rw [if_pos (by omega), if_pos hlt, laneByte_xor]
    exact congrArg _ (laneByte_le64 (fun j => block.getD (8 * i + j) 0#8) hj).symm
  · rw [if_neg (by omega), if_neg hlt]

/-- Settles O35: every rate is a whole number of lanes within the state. -/
theorem xorBlockChangesTheRatePartOnly : Obligations.XorBlockChangesTheRatePartOnly := by
  intro A a block hlen
  obtain ⟨-, hlt, h8⟩ := rate_bounds a
  rw [← hlen] at hlt h8 ⊢
  exact ⟨fun k hk => byte_xorBlock A hlt.le hk, fun i hi => flat_xorBlock A hlt.le h8 hi⟩

/-! ### Absorbing block by block -/

/-- The loop of `ABSORB_FN` after the first `n` blocks of `P` (41_sponge_absorb.md R104). -/
def absorbBlocks (A : Lanes) (P : List Byte) (r n : Nat) : Lanes :=
  (List.range n).foldl (fun A k => keccakP (xorBlock A (blockOf P r k))) A

theorem absorbBlocks_zero (A : Lanes) (P : List Byte) (r : Nat) : absorbBlocks A P r 0 = A := by
  simp [absorbBlocks]

theorem absorbBlocks_succ (A : Lanes) (P : List Byte) (r n : Nat) :
    absorbBlocks A P r (n + 1) = keccakP (xorBlock (absorbBlocks A P r n) (blockOf P r n)) := by
  simp [absorbBlocks, List.range_succ]

theorem absorbBlocks_congr (A : Lanes) {P Q : List Byte} {r n : Nat} (h : ∀ k < n, blockOf P r k = blockOf Q r k) :
    absorbBlocks A P r n = absorbBlocks A Q r n := by
  induction n with
  | zero => rw [absorbBlocks_zero, absorbBlocks_zero]
  | succ n ih => rw [absorbBlocks_succ, absorbBlocks_succ, ih fun k hk => h k (by omega), h n (by omega)]

theorem absorbBlocks_append (A : Lanes) {B : List Byte} (P : List Byte) {r : Nat} (hB : B.length = r) (n : Nat) :
    absorbBlocks A (B ++ P) r (n + 1) = absorbBlocks (keccakP (xorBlock A B)) P r n := by
  induction n with
  | zero => rw [absorbBlocks_succ, absorbBlocks_zero, absorbBlocks_zero, blockOf_zero, List.take_left' hB]
  | succ n ih => rw [absorbBlocks_succ, ih, blockOf_append_succ P hB, ← absorbBlocks_succ]

theorem absorbFn_eq_absorbBlocks (A : Lanes) (M : List Byte) {r : Nat} (sfx : Byte) (hr : 0 < r) :
    absorbFn A M r sfx = absorbBlocks A (pad M r sfx) r (M.length / r + 1) := by
  rw [absorbFn, length_pad_eq_blocks M sfx hr, Nat.mul_div_cancel _ hr, absorbBlocks]

/-- The full blocks of the message, then the rest of the message with the pad bytes. -/
theorem absorbFn_eq_last_block (A : Lanes) (M : List Byte) {r : Nat} (sfx : Byte) (hr : 0 < r) :
    absorbFn A M r sfx =
      keccakP (xorBlock (absorbBlocks A M r (M.length / r)) (M.drop (M.length / r * r) ++ padBytes M.length r sfx)) := by
  rw [absorbFn_eq_absorbBlocks A M sfx hr, absorbBlocks_succ, blockOf_pad_last M sfx hr,
    absorbBlocks_congr A fun k hk => blockOf_pad_of_lt M sfx hk]

theorem absorbFn_append (A : Lanes) {B : List Byte} (M : List Byte) {r : Nat} (sfx : Byte) (hr : 0 < r)
    (hB : B.length = r) : absorbFn A (B ++ M) r sfx = absorbFn (keccakP (xorBlock A B)) M r sfx := by
  have hpad : pad (B ++ M) r sfx = B ++ pad M r sfx := by
    rw [pad, pad, padBytes_congr (Lm := M.length) sfx (by simp [hB]), List.append_assoc]
  have hblocks : (B ++ M).length / r = M.length / r + 1 := by
    rw [List.length_append, hB, Nat.add_div_left _ hr]
  rw [absorbFn_eq_absorbBlocks _ _ sfx hr, hpad, hblocks, absorbBlocks_append A _ hB,
    ← absorbFn_eq_absorbBlocks _ _ sfx hr]

/-- Settles O36: the first block of the padded message is `B`, or all of it. -/
theorem absorbTakesBlocksInOrder : Obligations.AbsorbTakesBlocksInOrder := by
  intro A r sfx hr
  refine ⟨fun B M hB => absorbFn_append A M sfx hr hB, fun M hM => ?_⟩
  simp [absorbFn_eq_last_block A M sfx hr, Nat.div_eq_of_lt hM, absorbBlocks_zero]

/-! ### The XOR of a sequence in parts, and of the pad bytes -/

theorem xorBlockFrom_append (A : Lanes) (j : Nat) (P Q : List Byte) :
    xorBlockFrom A j (P ++ Q) = xorBlockFrom (xorBlockFrom A j P) (j + P.length) Q := by
  induction P generalizing A j with
  | nil => rfl
  | cons b P ih => simp [xorBlockFrom, ih, Nat.add_assoc, Nat.add_comm 1]

theorem xorBlockFrom_singleton (A : Lanes) (j : Nat) (b : Byte) :
    xorBlockFrom A j [b] = A.setByte j (A.byte j ^^^ b) := rfl

/-- Zero bytes change nothing. -/
theorem xorBlockFrom_zeros (A : Lanes) {j n : Nat} (h : j + n ≤ 200) : xorBlockFrom A j (List.replicate n 0#8) = A := by
  refine Lanes.ext_byte fun k hk => ?_
  rw [byte_xorBlockFrom A j _ (by simpa using h) hk]
  split
  · next hin =>
    have hlt : k - j < n := by simp at hin; omega
    simp [hlt]
  · rfl

/-- Two bytes XORed into the same place are their XOR. -/
theorem xorBlockFrom_byte_twice (A : Lanes) {j : Nat} (hj : j < 200) (b c : Byte) :
    xorBlockFrom (xorBlockFrom A j [b]) j [c] = xorBlockFrom A j [b ^^^ c] := by
  refine Lanes.ext_byte fun k hk => ?_
  simp only [xorBlockFrom, Lanes.byte_setByte _ _ hk hj, Lanes.byte_setByte _ _ hj hj, if_pos]
  split
  · rw [BitVec.xor_assoc]
  · rfl

/-- The pad bytes XORed in after the rest of the message are the first pad byte and 0x80 at their places, the same place
for a single pad byte (41_sponge_absorb.md R105). -/
theorem xorBlockFrom_padBytes (a : Alg) (A : Lanes) (Lm : Nat) :
    xorBlockFrom A (Lm % (PS a).rate) (padBytes Lm (PS a).rate (PS a).sfx) =
      xorBlockFrom (xorBlockFrom A (Lm % (PS a).rate) [(PS a).sfx]) ((PS a).rate - 1) [0x80#8] := by
  obtain ⟨hpos, hlt, -⟩ := rate_bounds a
  have hmod : Lm % (PS a).rate < (PS a).rate := Nat.mod_lt _ hpos
  obtain hone | htwo : (PS a).rate - Lm % (PS a).rate = 1 ∨ 2 ≤ (PS a).rate - Lm % (PS a).rate := by omega
  · have hdisjoint : (PS a).sfx ||| 0x80#8 = (PS a).sfx ^^^ 0x80#8 := by cases a <;> decide
    rw [padBytes_of_one _ hone, hdisjoint, show (PS a).rate - 1 = Lm % (PS a).rate by omega,
      xorBlockFrom_byte_twice A (by omega)]
  · rw [padBytes_of_two_le _ htwo, ← List.singleton_append, xorBlockFrom_append, xorBlockFrom_append,
      xorBlockFrom_zeros _ (by simp; omega)]
    congr 1
    simp
    omega

/-! ### The streaming form -/

theorem take_readBytes (m : Memory) (p : Nat) {t n : Nat} (h : t ≤ n) :
    (Memory.readBytes m p n).take t = Memory.readBytes m p t := by
  simp [Memory.readBytes, ← List.map_take, List.take_range, Nat.min_eq_left h]

theorem readBytes_add (m : Memory) (p t n : Nat) :
    Memory.readBytes m p (t + n) = Memory.readBytes m p t ++ Memory.readBytes m (p + t) n := by
  simp [Memory.readBytes, List.range_add, Function.comp_def, Nat.add_assoc]

theorem drop_readBytes (m : Memory) (p t n : Nat) :
    (Memory.readBytes m p (t + n)).drop t = Memory.readBytes m (p + t) n := by
  rw [readBytes_add, List.drop_left' (length_readBytes m p t)]

/-- Block `k` of a message buffer is the buffer of `r` bytes at offset `k * r`. -/
theorem blockOf_readBytes (m : Memory) (p : Nat) {n r k : Nat} (hk : k < n / r) :
    blockOf (Memory.readBytes m p n) r k = Memory.readBytes m (p + k * r) r := by
  have hle : (k + 1) * r ≤ n := (Nat.mul_le_mul_right r hk).trans (Nat.div_mul_le_self n r)
  rw [Nat.succ_mul] at hle
  obtain ⟨d, rfl⟩ : ∃ d, n = k * r + (r + d) := ⟨n - (k * r + r), by omega⟩
  rw [blockOf, drop_readBytes, take_readBytes m _ (by omega)]

/-- XORing bytes in as they are read is XORing in the block they make. -/
theorem xorFromMemory_eq_xorBlock (m : Memory) (p n : Nat) (A : Lanes) :
    xorFromMemory m p n A = xorBlock A (Memory.readBytes m p n) := by
  induction n with
  | zero => rfl
  | succ n ih =>
    rw [readBytes_add, xorBlock, xorBlockFrom_append, ← xorBlock, ← ih, length_readBytes, Nat.zero_add]
    simp [xorFromMemory, List.range_succ, Memory.readBytes, xorBlockFrom]

/-- The loop of the streaming form over the full blocks. -/
theorem foldl_xorFromMemory_eq_absorbBlocks (m : Memory) (p len : Nat) {r n : Nat} (A : Lanes) (hn : n ≤ len / r) :
    (List.range n).foldl (fun A k => keccakP (xorFromMemory m (p + k * r) r A)) A =
      absorbBlocks A (Memory.readBytes m p len) r n := by
  induction n with
  | zero => rw [absorbBlocks_zero, List.range_zero, List.foldl_nil]
  | succ n ih =>
    rw [List.range_succ, List.foldl_append, ih (by omega), absorbBlocks_succ, blockOf_readBytes m p hn,
      ← xorFromMemory_eq_xorBlock, List.foldl_cons, List.foldl_nil]

/-- Settles O37: the full blocks, the rest of the message and the two pad places are the blocks of `ABSORB_FN`. -/
theorem streamingAbsorbEqualsAbsorb : Obligations.StreamingAbsorbEqualsAbsorb := by
  intro a m ptr len A
  have hrest : (Memory.readBytes m ptr len).drop (len / (PS a).rate * (PS a).rate) =
      Memory.readBytes m (ptr + len / (PS a).rate * (PS a).rate) (len % (PS a).rate) := by
    rw [← drop_readBytes, Nat.div_add_mod']
  rw [absorbFn_eq_last_block A _ _ (rate_bounds a).1, length_readBytes, hrest, xorBlock, xorBlockFrom_append,
    length_readBytes, Nat.zero_add, xorBlockFrom_padBytes, ← xorBlock, ← xorFromMemory_eq_xorBlock,
    ← foldl_xorFromMemory_eq_absorbBlocks m ptr len A (le_refl _), xorBlockFrom_singleton, xorBlockFrom_singleton,
    streamAbsorb]

/-! ### The six ABSORB commands -/

theorem exec_absorb_of_wrong_phase {i : Instr} {a : Alg} {s : State} (ho : i.opcode = .absorb a) (hp : s.phase ≠ .empty) :
    exec i s = .refused .wrongPhase := by
  rw [exec_of_absorb ho, absorbCommand, requirePhase_neg hp]

/-- An `ABSORB` command, by its opcode and its operands: word, rate and first pad byte are those of its parameter set. -/
theorem absorbCompletes_of_opcode (cmd : Nat → Nat → Instr) (a : Alg) (ho : ∀ p n, (cmd p n).opcode = .absorb a)
    (hmsg : ∀ p n, (encode (cmd p n)).msgPtr = p ∧ (encode (cmd p n)).msgLen = n) :
    AbsorbCompletes (Opcode.absorb a).word cmd a (PS a).rate (PS a).sfx := by
  intro p n s
  obtain ⟨hptr, hlen⟩ := hmsg p n
  refine ⟨by rw [encode_cw, ho], fun hp hr => ?_, exec_absorb_of_wrong_phase (ho p n), fun hp hr => ?_⟩
  · rw [exec_absorb_of_admitted (ho p n) hp (by rwa [hptr, hlen]), hptr, hlen]
    rfl
  · exact exec_of_not_admittedRead (by rwa [ho, phaseTable_absorb_ne_none]) (by rwa [hptr, hlen])

/-- Settles O46: six commands of one shape. -/
theorem absorbAbsorbsTheMessage : Obligations.AbsorbAbsorbsTheMessage :=
  ⟨absorbCompletes_of_opcode .absorbSha3_224 .sha3_224 (fun _ _ => rfl) fun _ _ => ⟨rfl, rfl⟩,
    absorbCompletes_of_opcode .absorbSha3_256 .sha3_256 (fun _ _ => rfl) fun _ _ => ⟨rfl, rfl⟩,
    absorbCompletes_of_opcode .absorbSha3_384 .sha3_384 (fun _ _ => rfl) fun _ _ => ⟨rfl, rfl⟩,
    absorbCompletes_of_opcode .absorbSha3_512 .sha3_512 (fun _ _ => rfl) fun _ _ => ⟨rfl, rfl⟩,
    absorbCompletes_of_opcode .absorbShake128 .shake128 (fun _ _ => rfl) fun _ _ => ⟨rfl, rfl⟩,
    absorbCompletes_of_opcode .absorbShake256 .shake256 (fun _ _ => rfl) fun _ _ => ⟨rfl, rfl⟩⟩

end Sys2Proof.Machine
end

section
/-! PROOFS of 42_sponge_squeeze.md: the bytes and the state of `SQUEEZE_FN` by its rounds, the prefix property, the output
length of each set, and the command `SQUEEZE`. -/

namespace Sys2Proof.Machine

open Sys2Proof.Spec

/-! ### The rounds of SQUEEZE_FN -/

/-- An induction along the rounds of `SQUEEZE_FN`: a last round of at most `r` bytes, and a round that emits `r` bytes,
permutes and goes on. -/
theorem squeeze_induction {r : Nat} (hr : 0 < r) {motive : Lanes → Nat → Prop} (last : ∀ A n, n ≤ r → motive A n)
    (more : ∀ A n, r < n → motive (keccakP A) (n - r) → motive A n) (A : Lanes) (n : Nat) : motive A n := by
  induction n using Nat.strong_induction_on generalizing A with
  | h n ih =>
    obtain h | h := le_or_gt n r
    · exact last A n h
    · exact more A n h (ih (n - r) (by omega) (keccakP A))

theorem nperm_of_le {n r : Nat} (hr : 0 < r) (h : n ≤ r) : nperm n r = 0 := by
  rw [nperm, Nat.div_eq_of_lt (by omega), ite_self]

theorem nperm_of_gt {n r : Nat} (hr : 0 < r) (h : r < n) : nperm n r = nperm (n - r) r + 1 := by
  rw [nperm, nperm, if_neg (by omega), if_neg (by omega), show n - 1 = n - r - 1 + r by omega, Nat.add_div_right _ hr]

/-- The state `SQUEEZE_FN` leaves (42_sponge_squeeze.md R122). -/
theorem squeezeFn_state (A : Lanes) {r : Nat} (hr : 0 < r) (n : Nat) :
    (squeezeFn A r n).2 = Nat.iterate keccakP (nperm n r) A := by
  induction A, n using squeeze_induction hr with
  | last A n h => rw [squeezeFn_of_le A h, nperm_of_le hr h, Function.iterate_zero_apply]
  | more A n h ih => rw [squeezeFn_of_gt A hr h, ih, nperm_of_gt hr h, Function.iterate_succ_apply]

/-- A byte of a round's output lies in the state of that round, no permutation further on. -/
theorem getElem?_firstBytes_of_lt_rate (A : Lanes) {t r i : Nat} (ht : i < t) (hr : i < r) :
    (A.firstBytes t)[i]? = some ((Nat.iterate keccakP (i / r) A).byte (i % r)) := by
  rw [Nat.div_eq_of_lt hr, Nat.mod_eq_of_lt hr, Function.iterate_zero_apply]
  simp [Lanes.firstBytes, ht]

/-- Each output byte of `SQUEEZE_FN` (42_sponge_squeeze.md R121). -/
theorem getElem?_squeezeFn (A : Lanes) {r n i : Nat} (hr : 0 < r) (hi : i < n) :
    (squeezeFn A r n).1[i]? = some ((Nat.iterate keccakP (i / r) A).byte (i % r)) := by
  induction A, n using squeeze_induction hr generalizing i with
  | last A n h =>
    rw [squeezeFn_of_le A h]
    exact getElem?_firstBytes_of_lt_rate A hi (by omega)
  | more A n h ih =>
    rw [squeezeFn_of_gt A hr h]
    obtain hir | ⟨j, rfl⟩ : i < r ∨ ∃ j, i = r + j := (Nat.lt_or_ge i r).imp_right Nat.exists_eq_add_of_le
    · rw [List.getElem?_append_left (by rwa [A.length_firstBytes]), getElem?_firstBytes_of_lt_rate A hir hir]
    · rw [List.getElem?_append_right (by rw [A.length_firstBytes]; omega), A.length_firstBytes, Nat.add_sub_cancel_left,
        ih (by omega), Nat.add_div_left j hr, Nat.add_mod_left, Function.iterate_succ_apply]

/-- Settles O38: the state left is the one after `nperm n r` permutations, which are none up to one rate. -/
theorem squeezeLengthAndPermutationCount : Obligations.SqueezeLengthAndPermutationCount := by
  intro A r n hr
  refine ⟨length_squeezeFn A hr n, squeezeFn_state A hr n, fun h => by rw [squeezeFn_of_le A h], ?_⟩
  rintro rfl
  rw [squeezeFn_of_gt A hr (by omega), squeezeFn_of_le (keccakP A) (by omega)]

/-- Settles O39, by induction along the rounds. -/
theorem squeezeOutputByteByByte : Obligations.SqueezeOutputByteByByte :=
  fun A _ n hr => ⟨length_squeezeFn A hr n, fun _ hi => getElem?_squeezeFn A hr hi, squeezeFn_state A hr n⟩

/-- Settles O40: output byte `i` does not depend on the number of bytes asked for. -/
theorem squeezePrefixExtensibility : Obligations.SqueezePrefixExtensibility := by
  intro A r n k hr
  refine List.ext_getElem? fun i => ?_
  obtain hi | hi := Nat.lt_or_ge i n
  · rw [List.getElem?_take_of_lt hi, getElem?_squeezeFn A hr (by omega), getElem?_squeezeFn A hr hi]
  · rw [List.getElem?_take_eq_none hi, List.getElem?_eq_none (by rwa [length_squeezeFn A hr])]

/-! ### The output length -/

theorem outputLength_of_fixed {a : Alg} {d : Nat} (h : (PS a).mode = .fixed d) (m : Nat) : outputLength a m = d := by
  simp [outputLength, h]

/-- A digest fits in one rate part (43_parameter_sets_and_wrappers.md R141). -/
theorem digest_le_rate {a : Alg} {d : Nat} (h : (PS a).mode = .fixed d) : d ≤ (PS a).rate := by
  cases a <;> cases h <;> decide

/-- A fixed-output hash is the first bytes of the absorbed state, which is left as it is. -/
theorem hashFn_of_fixed {a : Alg} {d : Nat} (h : (PS a).mode = .fixed d) (M : List Byte) (m : Nat) :
    hashFn a M m = ((absorbFn Lanes.zero M (PS a).rate (PS a).sfx).firstBytes d,
      absorbFn Lanes.zero M (PS a).rate (PS a).sfx) := by
  rw [hashFn, outputLength_of_fixed h, squeezeFn_of_le _ (digest_le_rate h)]

theorem length_hashFn_of_fixed {a : Alg} {d : Nat} (h : (PS a).mode = .fixed d) (M : List Byte) (m : Nat) :
    (hashFn a M m).1.length = d := by
  rw [hashFn_of_fixed h, Lanes.length_firstBytes]

/-- Settles O43: a digest fits in one rate part, so no output is longer than one round. -/
theorem fixedOutputLengthAlways : Obligations.FixedOutputLengthAlways := by
  intro M m
  refine ⟨length_hashFn_of_fixed rfl M m, length_hashFn_of_fixed rfl M m, length_hashFn_of_fixed rfl M m,
    length_hashFn_of_fixed rfl M m, fun a d h => ⟨length_hashFn_of_fixed h M m, by rw [hashFn_of_fixed h], ?_⟩⟩
  intro q s t ha hexec
  obtain ⟨-, -, rfl⟩ := (exec_squeeze_next_iff ha q m).1 hexec
  rw [squeezeOut_S, outputLength_of_fixed h, squeezeFn_of_le s.S (digest_le_rate h)]

/-! ### The command SQUEEZE -/

theorem exec_squeeze_of_wrong_phase {i : Instr} {s : State} (ho : i.opcode = .squeeze) (hp : s.phase ≠ .squeezing) :
    exec i s = .refused .wrongPhase := by
  rw [exec_of_squeeze ho, execSqueeze, requirePhase_neg hp]

/-- Settles O47: the two output modes give the number of bytes, the rest is the same for both. -/
theorem squeezeWritesTheOutput : Obligations.SqueezeWritesTheOutput := by
  intro q m s
  refine ⟨rfl, exec_squeeze_of_wrong_phase rfl, fun a n hp ha hmode => ?_⟩
  obtain rfl : outputLength a m = n := by
    rcases hmode with hfixed | ⟨hvariable, rfl⟩
    · exact outputLength_of_fixed hfixed m
    · exact outputLength_of_variable hvariable n
  refine ⟨exec_squeeze_of_admitted (i := .squeeze q m) rfl hp ha, fun hw => ?_⟩
  exact exec_of_not_admittedWrite (phaseTable_squeeze_ne_none.2 hp) (admittedRead_zero s 0)
    (by rwa [storedBytes_of_squeeze rfl ha])

/-- `OUT_LEN` enters SQUEEZE through the output length only. -/
theorem exec_squeeze_congr {a : Alg} {s : State} (ha : s.alg = some a) (q : Nat) {m m' : Nat}
    (h : outputLength a m = outputLength a m') : exec (.squeeze q m) s = exec (.squeeze q m') s := by
  change execSqueeze q m s = execSqueeze q m' s
  simp only [execSqueeze, ha, h]

/-- Settles O48: under a fixed-output set every `OUT_LEN` gives the same output length. -/
theorem outLenIsIgnoredForFixedOutput : Obligations.OutLenIsIgnoredForFixedOutput := by
  intro q m m' d a s ha hmode
  exact exec_squeeze_congr ha q (by rw [outputLength_of_fixed hmode, outputLength_of_fixed hmode])

end Sys2Proof.Machine
end

section
/-! PROOFS of 43_parameter_sets_and_wrappers.md: the facts of the parameter table, what the six one-shot commands leave and
when they are refused, and the known answers for the empty message. -/

namespace Sys2Proof.Machine

open Sys2Proof.Spec

/-! ### The parameter sets -/

/-- Rate and capacity are the whole state (43_parameter_sets_and_wrappers.md R141). -/
theorem rate_add_capacity (a : Alg) : (PS a).rate + (PS a).capacity = Config.stateBytes := by
  cases a <;> rfl

/-- The capacity of a fixed-output set is twice its digest (43_parameter_sets_and_wrappers.md R141). -/
theorem capacity_of_fixed {a : Alg} {d : Nat} (h : (PS a).mode = .fixed d) : (PS a).capacity = 2 * d := by
  cases a <;> cases h <;> rfl

/-- Settles O42: the rows and the codes are closed data; the facts about a row hold set by set. -/
theorem parameterTable : Obligations.ParameterTable := by
  refine ⟨by decide, by decide, fun a => ⟨rate_add_capacity a, ?_, fun d h => ⟨digest_le_rate h, capacity_of_fixed h⟩⟩⟩
  obtain ⟨-, -, hlanes⟩ := rate_bounds a
  exact Nat.mod_eq_zero_of_dvd hlanes

/-! ### What a one-shot command leaves -/

/-- A one-shot command, by its opcode: word, rate, first pad byte and output length are those of its parameter set, the
operands those of its transaction. -/
theorem oneshotCompletes_of_opcode {i : Instr} {a : Alg} (ho : i.opcode = .oneshot a) :
    OneshotCompletes (Opcode.oneshot a).word i a (encode i).msgPtr (encode i).msgLen (encode i).outPtr
      (PS a).rate (PS a).sfx (outputLength a (encode i).outLen) :=
  ⟨by rw [encode_cw, ho], fun _ hr hw => exec_oneshot_of_admitted ho hr hw⟩

/-- Settles O49: four commands of one shape, whose output length is the digest length. -/
theorem fixedOneshotsHashTheMessage : Obligations.FixedOneshotsHashTheMessage := fun p n q =>
  ⟨oneshotCompletes_of_opcode (i := .sha3_224 p n q) rfl, oneshotCompletes_of_opcode (i := .sha3_256 p n q) rfl,
    oneshotCompletes_of_opcode (i := .sha3_384 p n q) rfl, oneshotCompletes_of_opcode (i := .sha3_512 p n q) rfl⟩

/-- Settles O50: two commands of the same shape, whose output length is `OUT_LEN`. -/
theorem xofOneshotsHashTheMessage : Obligations.XofOneshotsHashTheMessage := fun p n q m =>
  ⟨oneshotCompletes_of_opcode (i := .shake128 p n q m) rfl, oneshotCompletes_of_opcode (i := .shake256 p n q m) rfl⟩

/-! ### When a one-shot command is refused -/

/-- Every phase admits the one-shot commands (44_computation_state_machine.md R171). -/
theorem phaseTable_oneshot_ne_none (a : Alg) (p : Phase) : phaseTable (.oneshot a) p ≠ none := by
  simp [phaseTable]

/-- Settles O51: no phase refuses a one-shot, so only its buffers do, the message buffer first. -/
theorem oneshotIsRefusedForItsBuffers : Obligations.OneshotIsRefusedForItsBuffers := by
  intro i a s ho
  have hp : phaseTable i.opcode s.phase ≠ none := by
    rw [ho]
    exact phaseTable_oneshot_ne_none a s.phase
  refine ⟨exec_of_not_admittedRead hp, fun hr hw => exec_of_not_admittedWrite hp hr ?_⟩
  rwa [storedBytes_of_oneshot ho]

/-! ### Known answers for the empty message -/

/-- Reading back the start of an output of at most one rate gives the first bytes of `S`. -/
theorem readBytes_squeezeOut {s : State} (h : Memory.wf s.mem) (a : Alg) (q : Nat) {k n : Nat} (hk : k ≤ n)
    (hn : n ≤ (PS a).rate) : Memory.readBytes (squeezeOut a q n s).mem q k = s.S.firstBytes k := by
  refine List.map_congr_left fun j hj => Option.some.inj ?_
  have hjn : j < n := (List.mem_range.1 hj).trans_le hk
  rw [read_squeezeOut h a q hjn, squeezeFn_of_le s.S hn]
  simp [Lanes.firstBytes, hjn]

/-- A one-shot of no message bytes and at most one rate of output bytes stores the first bytes of the permuted padding
block. -/
theorem exec_oneshot_of_empty_message_stores {i : Instr} {a : Alg} {s : State} (ho : i.opcode = .oneshot a)
    (hmsg : (encode i).msgLen = 0) (hwf : Memory.wf s.mem) {k n : Nat} (hlen : outputLength a (encode i).outLen = n)
    (hw : s.admittedWrite (encode i).outPtr n = true) (hk : k ≤ n) (hn : n ≤ (PS a).rate) :
    ∃ t, exec i s = .next t ∧
      Memory.readBytes t.mem (encode i).outPtr k = (emptyAbsorbed a Lanes.zero).firstBytes k := by
  subst hlen
  refine ⟨_, exec_oneshot_of_admitted ho (by simp [hmsg]) hw, ?_⟩
  rw [readBytes_squeezeOut (by simpa using hwf) a _ hk hn]
  simp [hmsg, absorbFn_nil]

/-- The digest of the empty message (95_test_vectors.md S1; 90_conflicts.md C1), one run of the permutation. -/
theorem firstBytes_emptyAbsorbed_sha3_256 :
    ((emptyAbsorbed .sha3_256 Lanes.zero).firstBytes 32).map BitVec.toNat =
      [0xa7, 0xff, 0xc6, 0xf8, 0xbf, 0x1e, 0xd7, 0x66, 0x51, 0xc1, 0x47, 0x56, 0xa0, 0x61, 0xd6, 0x62,
       0xf5, 0x80, 0xff, 0x4d, 0xe4, 0x3b, 0x49, 0xfa, 0x82, 0xd8, 0x0a, 0x4b, 0x80, 0xf8, 0x43, 0x4a] := by
  decide +kernel

/-- The start of the output of the empty message (95_test_vectors.md S2), one run of the permutation. -/
theorem firstBytes_emptyAbsorbed_shake128 :
    ((emptyAbsorbed .shake128 Lanes.zero).firstBytes 32).map BitVec.toNat =
      [0x7f, 0x9c, 0x2b, 0xa4, 0xe8, 0x8f, 0x82, 0x7d, 0x61, 0x60, 0x45, 0x50, 0x76, 0x05, 0x85, 0x3e,
       0xd7, 0x3b, 0x80, 0x93, 0xf6, 0xef, 0xbc, 0x88, 0xeb, 0x1a, 0x6e, 0xac, 0xfa, 0x66, 0xef, 0x26] := by
  decide +kernel

/-- Settles O59: the stored digest is the start of the permuted padding block, whatever the state before. -/
theorem emptyMessageSha3_256Digest : Obligations.EmptyMessageSha3_256Digest := by
  intro p q s hwf hw
  obtain ⟨t, hexec, hread⟩ :=
    exec_oneshot_of_empty_message_stores (i := .sha3_256 p 0 q) rfl rfl hwf rfl hw le_rfl (digest_le_rate rfl)
  exact ⟨t, hexec, (congrArg _ hread).trans firstBytes_emptyAbsorbed_sha3_256⟩

/-- Settles O60: an output of at most one rate begins with the same bytes, whatever its length. -/
theorem emptyMessageShake128Output : Obligations.EmptyMessageShake128Output := by
  intro p q n s hwf hmin hmax hw
  obtain ⟨t, hexec, hread⟩ :=
    exec_oneshot_of_empty_message_stores (i := .shake128 p 0 q n) rfl rfl hwf rfl hw hmin hmax
  exact ⟨t, hexec, (congrArg _ hread).trans firstBytes_emptyAbsorbed_shake128⟩

end Sys2Proof.Machine
end

section
/-! PROOFS of 44_computation_state_machine.md: the phase each command leaves, the phases it is refused in, and what INIT
leaves. -/

namespace Sys2Proof.Machine

open Sys2Proof.Spec

/-! ### The phase a command leaves -/

/-- A command that completes leaves the phase of its entry in the table, which each of the five shapes of a completed
command reaches; in `ABSORBING`, for which R171 has no column, the entry is the one `phaseTable` gives. -/
theorem phaseTable_of_exec_next {i : Instr} {s t : State} (h : exec i s = .next t) :
    phaseTable i.opcode s.phase = some t.phase := by
  rcases exec_next_cases h with ⟨ho, rfl⟩ | ⟨ho, rfl⟩ | ⟨a, ho, hp, -, rfl⟩ | ⟨a, ho, hp, -, -, rfl⟩ | ⟨a, ho, -, -, rfl⟩
  · simp [ho, phaseTable]
  · cases hp : s.phase <;> simp [ho, hp, phaseTable]
  · simp [ho, hp, phaseTable]
  · simp [ho, hp, phaseTable]
  · simp [ho, phaseTable]

/-! ### The phases a command is refused in -/

theorem absorbCommand_eq_wrongPhase_iff (a : Alg) (p n : Nat) (s : State) :
    absorbCommand a p n s = .refused .wrongPhase ↔ s.phase ≠ .empty := by
  rcases absorbCommand_cases a p n s with ⟨hp, -, he⟩ | ⟨hp, he⟩ | ⟨hp, -, he⟩ <;> simp [he, hp]

theorem execSqueeze_eq_wrongPhase_iff (q m : Nat) (s : State) :
    execSqueeze q m s = .refused .wrongPhase ↔ s.phase ≠ .squeezing := by
  rcases execSqueeze_cases q m s with ⟨a, hp, -, -, he⟩ | ⟨hp, he⟩ | ⟨hp, -, he⟩ | ⟨a, hp, -, -, he⟩ <;> simp [he, hp]

theorem oneshotCommand_ne_wrongPhase (a : Alg) (p n q m : Nat) (s : State) :
    oneshotCommand a p n q m s ≠ .refused .wrongPhase := by
  rcases oneshotCommand_cases a p n q m s with ⟨-, -, he⟩ | ⟨-, he⟩ | ⟨-, -, he⟩ <;> simp [he]

/-- A command is refused `WrongPhase` exactly where the table has no next phase: ABSORB outside `EMPTY`, SQUEEZE outside
`SQUEEZING`, the others nowhere. -/
theorem exec_eq_wrongPhase_iff (i : Instr) (s : State) :
    exec i s = .refused .wrongPhase ↔ phaseTable i.opcode s.phase = none := by
  cases ho : i.opcode with
  | init => simp [exec_of_init ho, execInit, phaseTable]
  | keccakP => cases s.phase <;> simp [exec_of_keccakP ho, execKeccakP, phaseTable]
  | absorb a =>
    rw [exec_of_absorb ho, absorbCommand_eq_wrongPhase_iff]
    exact phaseTable_absorb_ne_none.symm.not_left
  | squeeze =>
    rw [exec_of_squeeze ho, execSqueeze_eq_wrongPhase_iff]
    exact phaseTable_squeeze_ne_none.symm.not_left
  | oneshot a =>
    rw [exec_of_oneshot ho]
    exact iff_of_false (oneshotCommand_ne_wrongPhase _ _ _ _ _ _) (phaseTable_oneshot_ne_none a s.phase)

/-- Settles O13: the two halves hold in `ABSORBING` too, where the entries are the model's choice (assumption 6). -/
theorem phaseFollowsTheTable : Obligations.PhaseFollowsTheTable := fun i s _ =>
  ⟨fun _ h => phaseTable_of_exec_next h, exec_eq_wrongPhase_iff i s⟩

/-! ### The command INIT -/

/-- Settles O44: INIT leaves the fresh state object, whose 25 lanes are zero. -/
theorem initCreatesFreshState : Obligations.InitCreatesFreshState :=
  ⟨rfl, fun i _ => Lanes.flat_zero i, exec_init⟩

end Sys2Proof.Machine
end

section
/-! PROOFS of 60_exceptions.md: when a command completes, the reasons it is refused for and their order, and the idle step. -/

namespace Sys2Proof.Machine

open Sys2Proof.Spec

/-! ### When a command completes -/

/-- A command that its phase and both its buffers admit completes. Only SQUEEZE needs more, the value of `ALG` that R24 gives
it in `SQUEEZING`. -/
theorem completes_of_admitted {i : Instr} {s : State} (hinv : s.Inv)
    (hp : phaseTable i.opcode s.phase ≠ none) (hr : s.admittedRead (encode i).msgPtr (encode i).msgLen = true)
    (hw : s.admittedWrite (encode i).outPtr (storedBytes i s) = true) : Completes i s := by
  cases ho : i.opcode with
  | init => exact ⟨_, exec_of_init ho s⟩
  | keccakP => exact ⟨_, exec_of_keccakP ho s⟩
  | absorb a =>
    rw [ho, phaseTable_absorb_ne_none] at hp
    exact ⟨_, exec_absorb_of_admitted ho hp hr⟩
  | squeeze =>
    rw [ho, phaseTable_squeeze_ne_none] at hp
    obtain ⟨-, -, -, -, -, halg⟩ := hinv
    obtain ⟨a, ha⟩ := Option.ne_none_iff_exists'.mp (halg hp)
    rw [storedBytes_of_squeeze ho ha] at hw
    exact ⟨_, exec_squeeze_of_admitted ho hp ha hw⟩
  | oneshot a =>
    rw [storedBytes_of_oneshot ho] at hw
    exact ⟨_, exec_oneshot_of_admitted ho hr hw⟩

theorem not_completes_of_refused {i : Instr} {s : State} {r : Refusal} (h : exec i s = .refused r) : ¬ Completes i s := by
  simp [Completes, h]

/-- Settles O12: each of the three conditions that fails is a refusal, and together they are enough. -/
theorem admittedCommandsComplete : Obligations.AdmittedCommandsComplete := by
  intro i s hinv
  constructor
  · intro hc
    have hp : phaseTable i.opcode s.phase ≠ none :=
      fun hp => not_completes_of_refused ((exec_eq_wrongPhase_iff i s).mpr hp) hc
    have hr : s.admittedRead (encode i).msgPtr (encode i).msgLen = true :=
      by_contra fun hr => not_completes_of_refused (exec_of_not_admittedRead hp hr) hc
    exact ⟨hp, hr, by_contra fun hw => not_completes_of_refused (exec_of_not_admittedWrite hp hr hw) hc⟩
  · rintro ⟨hp, hr, hw⟩
    exact completes_of_admitted hinv hp hr hw

/-! ### The reasons a command is refused for -/

/-- Settles O14: there is no fault to answer; a refusal for anything else than the phase or a buffer would be of a command that
completes. -/
theorem commandsStopForTheSpecsReasonsOnly : Obligations.CommandsStopForTheSpecsReasonsOnly := by
  refine fun i s => ⟨nofun, fun hinv r h => ?_⟩
  have eq_of_refused {r' : Refusal} (h' : exec i s = .refused r') : r = r' :=
    Host.Outcome.refused.inj (h.symm.trans h')
  by_cases hp : phaseTable i.opcode s.phase = none
  · exact .inl (eq_of_refused ((exec_eq_wrongPhase_iff i s).mpr hp))
  by_cases hr : s.admittedRead (encode i).msgPtr (encode i).msgLen = true
  · by_cases hw : s.admittedWrite (encode i).outPtr (storedBytes i s) = true
    · exact absurd (completes_of_admitted hinv hp hr hw) (not_completes_of_refused h)
    · exact .inr ⟨.output, eq_of_refused (exec_of_not_admittedWrite hp hr hw)⟩
  · exact .inr ⟨.message, eq_of_refused (exec_of_not_admittedRead hp hr)⟩

/-! ### The order of the reasons -/

@[simp] theorem storedBytes_withHost (i : Instr) (s : State) (v : List HostEvent) :
    storedBytes i (s.withHost v) = storedBytes i s := (rfl)

/-- Settles O11: the step runs the decoded command without its event, which no check looks at, and the command checks in
this order. -/
theorem firstRefusalReasonIsReported : Obligations.FirstRefusalReasonIsReported := by
  intro s t rest hhost _
  refine ⟨fun h => (step_of_issue hhost).trans (issue_of_reserved h _), fun i hdecode => ?_⟩
  rw [stepRunsDecodedCommand s t rest i hhost hdecode]
  refine ⟨fun hp => ?_, fun hp hr => ?_, fun hp hr hw => ?_⟩
  · exact (exec_eq_wrongPhase_iff i _).mpr (by simpa using hp)
  · exact exec_of_not_admittedRead (by simpa using hp) (by simpa using hr)
  · exact exec_of_not_admittedWrite (by simpa using hp) (by simpa using hr) (by simpa using hw)

/-! ### The idle step -/

/-- Settles O7: with the list of host events empty the step answers the state it was given. -/
theorem idleStepHoldsState : Obligations.IdleStepHoldsState := by
  intro s hhost
  simp [step, nextAction, hhost]

end Sys2Proof.Machine
end

section
/-! PROOFS of 70_reset_and_hazards.md: whether a command completes, and why it is refused, is decided by `PHASE`, `ALG` and the
parameters alone. -/

namespace Sys2Proof.Machine

/-! ### The refusal in what a command answers -/

/-- The reason a command is refused for, `none` where it completes: the answer with its next state left out
(60_exceptions.md R193). -/
def refusalOf : Result → Option Refusal
  | .next _ => none
  | .fault f => nomatch f
  | .refused r => some r

@[simp] theorem refusalOf_next (t : State) : refusalOf (.next t) = none := rfl

@[simp] theorem refusalOf_refused (r : Refusal) : refusalOf (.refused r) = some r := rfl

theorem refusalOf_eq_some_iff {x : Result} {r : Refusal} : refusalOf x = some r ↔ x = .refused r := by
  cases x with
  | next t => simp
  | fault f => exact nomatch f
  | refused r' => simp

theorem refusalOf_eq_none_iff {x : Result} : refusalOf x = none ↔ ∃ t, x = .next t := by
  cases x with
  | next t => simp
  | fault f => exact nomatch f
  | refused r => simp

theorem completes_iff_refusalOf_eq_none {i : Instr} {s : State} : Completes i s ↔ refusalOf (exec i s) = none :=
  refusalOf_eq_none_iff.symm

@[simp] theorem refusalOf_requirePhase (p : Phase) (s : State) (k : Result) :
    refusalOf (requirePhase p s k) = if s.phase = p then refusalOf k else some .wrongPhase := apply_ite ..

@[simp] theorem refusalOf_requireRead (p n : Nat) (s : State) (k : Result) :
    refusalOf (requireRead p n s k) = if s.admittedRead p n then refusalOf k else some (.bufferNotAdmitted .message) :=
  apply_ite ..

@[simp] theorem refusalOf_requireWrite (p n : Nat) (s : State) (k : Result) :
    refusalOf (requireWrite p n s k) = if s.admittedWrite p n then refusalOf k else some (.bufferNotAdmitted .output) :=
  apply_ite ..

/-! ### What the checks look at -/

theorem State.SameParameters.admittedRead_eq {s t : State} (h : s.SameParameters t) (p n : Nat) :
    t.admittedRead p n = s.admittedRead p n := by
  obtain ⟨hwidths, hread, -⟩ := h
  rw [State.admittedRead, State.admittedRead, hwidths, hread]

theorem State.SameParameters.admittedWrite_eq {s t : State} (h : s.SameParameters t) (p n : Nat) :
    t.admittedWrite p n = s.admittedWrite p n := by
  obtain ⟨hwidths, -, hwrite⟩ := h
  rw [State.admittedWrite, State.admittedWrite, hwidths, hwrite]

/-- The checks of a command look at nothing but `PHASE`, `ALG` and the parameters (44_computation_state_machine.md R174,
20_memory.md R36); neither `S` nor memory is among them. -/
theorem refusalOf_exec_congr (i : Instr) {s t : State} (hpar : s.SameParameters t) (hphase : t.phase = s.phase)
    (halg : t.alg = s.alg) : refusalOf (exec i t) = refusalOf (exec i s) := by
  cases ho : i.opcode with
  | init => simp [exec_of_init ho, execInit]
  | keccakP => simp [exec_of_keccakP ho, execKeccakP]
  | absorb a => simp [exec_of_absorb ho, absorbCommand, hphase, hpar.admittedRead_eq]
  | squeeze =>
    cases ha : s.alg <;> simp [exec_of_squeeze ho, execSqueeze, hphase, halg, ha, hpar.admittedWrite_eq]
  | oneshot a => simp [exec_of_oneshot ho, oneshotCommand, hpar.admittedRead_eq, hpar.admittedWrite_eq]

/-! ### Other data, the same answer -/

/-- Settles O57: a state with another `S` and another memory has the same phase, `ALG` and parameters, so the command is refused
for the same reason or for none. -/
theorem admissionIsDataIndependent : Obligations.AdmissionIsDataIndependent := by
  intro i s A m
  have hrefusal : refusalOf (exec i { s with S := A, mem := m }) = refusalOf (exec i s) :=
    refusalOf_exec_congr i ⟨rfl, rfl, rfl⟩ rfl rfl
  refine ⟨?_, fun r => ?_⟩
  · rw [completes_iff_refusalOf_eq_none, completes_iff_refusalOf_eq_none, hrefusal]
  · rw [← refusalOf_eq_some_iff, ← refusalOf_eq_some_iff, hrefusal]

end Sys2Proof.Machine
end

section
/-! PROOFS of 95_test_vectors.md section 4: each of the five steps is a bijection of the states. -/

namespace Sys2Proof.Machine

/-- There are finitely many states, so a step that loses none of them reaches all of them. -/
theorem bijective_of_injective {f : Lanes → Lanes} (hf : Function.Injective f) : Function.Bijective f :=
  haveI := finite_lanes
  Finite.injective_iff_bijective.1 hf

/-- Settles O29: each step is injective on finitely many states; theta by its column parities, rho lane by lane, pi as a
move of lanes, chi by its inverse on a row, iota as an XOR with a constant. -/
theorem fiveStepsAreBijections : Obligations.FiveStepsAreBijections :=
  ⟨bijective_of_injective theta_injective, bijective_of_injective rho_injective, bijective_of_injective pi_injective,
    bijective_of_injective chi_injective, fun ir _ => bijective_of_injective (iota_injective ir)⟩

end Sys2Proof.Machine
end
